-- ==== Sys2Proof/Word.lean ====
section
/-! DEFINITION. The bits, bit sequences and fixed-width values of HAMCORE (spec R9, R10, R12, R16). -/

namespace Sys2Proof

/-- R16: "a single binary value, 0 or 1"; `true` is 1. -/
abbrev Bit := Bool

/-- R12: a bit sequence, first bit on the wire first. -/
abbrev Bits := List Bit

/-- R9, R16: the 4-bit unit of user payload; bit `i` is `d_i`. -/
abbrev Nibble := BitVec 4

/-- R9, R66: an 8-bit code word or received word; bits 0 to 7 are d0..d3, h0, h1, h2, p. -/
abbrev CodeWord := BitVec 8

/-- R9, R101: the 3-bit syndrome. -/
abbrev Syndrome := BitVec 3

/-- R9, R109: the 2-bit correction count. -/
abbrev Count := BitVec 2

/-- R60: the 16-bit command word. -/
abbrev CmdWord := BitVec 16

end Sys2Proof
end

