-- ==== Sys2Proof/Config.lean ====
section
/-! DEFINITION. The static build parameters of a HAMCORE block (spec R6, R7, R8, R24). The spec has no free value. -/

namespace Sys2Proof

/-- R6: the legal values of `W`, the wire group width. -/
inductive GroupWidth where
  /-- `W = 8`: this hardware. -/
  | eight
  /-- `W = 7`: the width of the reference tool, with the dropping reading of R136. -/
  | seven
deriving DecidableEq, Repr

/-- R6: the number of bits each code word occupies in a frame. -/
def GroupWidth.bits : GroupWidth → Nat
  | .eight => 8
  | .seven => 7

/-- R7: the legal values of `FLIP_MAP`. -/
inductive FlipMap where
  /-- R104: flip the bit whose column is the syndrome. This hardware. -/
  | column
  /-- R105: flip the bit whose number is the syndrome. The reference tool. -/
  | shift
deriving DecidableEq, Repr

/-- R24: the three static build parameters. -/
structure Params where
  /-- R6: `W`. -/
  width : GroupWidth
  /-- R7: `FLIP_MAP`. -/
  flipMap : FlipMap
  /-- R8: `MAX_NIBBLES`, a positive integer, or `none` for unbounded. -/
  maxNibbles : Option Nat
deriving DecidableEq, Repr

/-- R8: a bound on the payload, where there is one, is a positive integer. -/
def Params.wf (p : Params) : Bool :=
  match p.maxNibbles with
  | none => true
  | some m => decide (0 < m)

/-- R24: the values of this hardware, `W = 8` and `FLIP_MAP = COLUMN`. DESIGN CHOICE (log 1): `MAX_NIBBLES`, which the
spec leaves OPEN, is taken as unbounded, as R8 lets a model take it. -/
def Params.hamcore : Params :=
  { width := .eight, flipMap := .column, maxNibbles := none }

end Sys2Proof
end

