-- ==== Sys2Proof/Syntax.lean ====
section
/-! DEFINITION. The six operations of HAMCORE, one constructor per row of the opcode table (spec R3, R61). -/

namespace Sys2Proof

/-- R3: "These six are the whole operation set." The operand a command word carries (R62) is the constructor's
argument; the stream operand `sin` is no part of the command word and stands in the machine's state. -/
inductive Instr where
  /-- R81: ENC, encode the nibble `n`. -/
  | enc (n : Nibble)
  /-- R107: DEC, decode and correct the received word `b`. -/
  | dec (b : CodeWord)
  /-- R131: WRAP, add the markers to `sin`. -/
  | wrap
  /-- R132: STRIP, check and remove the markers of `sin`. -/
  | strip
  /-- R135: ENCODE_FRAME, encode the payload `sin` into a frame. -/
  | encodeFrame
  /-- R137: DECODE_FRAME, decode the frame `sin` into a payload. -/
  | decodeFrame
deriving DecidableEq, Repr

end Sys2Proof
end

