-- ==== Sys2Proof/WellFormed.lean ====
section
/-! DEFINITION. Which operations may take which stream operand (spec R63), and the five clauses of R64 that make a
command illegal, each a check of its own. -/

namespace Sys2Proof

/-- R63: ENC and DEC need an empty stream operand; the four stream operations take any. -/
def WellFormed (i : Instr) (sin : Bits) : Bool :=
  match i with
  | .enc _ => sin.isEmpty
  | .dec _ => sin.isEmpty
  | .wrap => true
  | .strip => true
  | .encodeFrame => true
  | .decodeFrame => true

/-- R64(a): OP, `cmd[2:0]`, is 110 or 111. -/
def reservedOp (cmd : CmdWord) : Bool :=
  cmd.extractLsb' 0 3 == 6#3 || cmd.extractLsb' 0 3 == 7#3

/-- R64(b): RSV, `cmd[7:3]`, is not 0. -/
def reservedBitsSet (cmd : CmdWord) : Bool :=
  cmd.extractLsb' 3 5 != 0#5

/-- R64(c): OP is 000 and `cmd[15:12]` is not 0. -/
def encUpperOperandSet (cmd : CmdWord) : Bool :=
  cmd.extractLsb' 0 3 == 0#3 && cmd.extractLsb' 12 4 != 0#4

/-- R64(d): OP is 010, 011, 100 or 101 and OPD, `cmd[15:8]`, is not 0. -/
def streamOperandBitsSet (cmd : CmdWord) : Bool :=
  (cmd.extractLsb' 0 3 == 2#3 || cmd.extractLsb' 0 3 == 3#3 ||
    cmd.extractLsb' 0 3 == 4#3 || cmd.extractLsb' 0 3 == 5#3) && cmd.extractLsb' 8 8 != 0#8

/-- R64(e): OP is 000 or 001 and `sin` is not empty. -/
def fixedOpHasStream (cmd : CmdWord) (sin : Bits) : Bool :=
  (cmd.extractLsb' 0 3 == 0#3 || cmd.extractLsb' 0 3 == 1#3) && !sin.isEmpty

/-- R64: a command is illegal when any of the clauses (a) to (e) holds. -/
def illegalCommand (cmd : CmdWord) (sin : Bits) : Bool :=
  reservedOp cmd || reservedBitsSet cmd || encUpperOperandSet cmd || streamOperandBitsSet cmd ||
    fixedOpHasStream cmd sin

end Sys2Proof
end

