-- ==== Sys2Proof/Decode.lean ====
section
/-! DEFINITION. Command words to operations and back (spec R60 to R62, R64, R65): `decode` is total on the 65536 words
and rejects each illegal one by name; `encode` is its inverse, from the same table. -/

namespace Sys2Proof

/-- Why a command word spells no operation. Every one of them is the machine's IllegalOperation (R165). -/
inductive Reject where
  /-- R64(a): OP is 110 or 111. -/
  | reservedOp
  /-- R64(b): RSV is not 0. -/
  | reservedBits
  /-- R64(c): ENC with `cmd[15:12]` not 0. -/
  | encUpperOperand
  /-- R64(d): a stream operation with OPD not 0. -/
  | streamOperand
deriving DecidableEq, Repr

/-- R60: OP, `cmd[2:0]`. -/
def opField (cmd : CmdWord) : BitVec 3 := cmd.extractLsb' 0 3

/-- R60: RSV, `cmd[7:3]`. -/
def rsvField (cmd : CmdWord) : BitVec 5 := cmd.extractLsb' 3 5

/-- R60: OPD, `cmd[15:8]`. -/
def opdField (cmd : CmdWord) : BitVec 8 := cmd.extractLsb' 8 8

/-- R62: the nibble of ENC, `cmd[11:8]`. -/
def nibbleField (cmd : CmdWord) : Nibble := cmd.extractLsb' 8 4

/-- R61: the unused operand bits of ENC, `cmd[15:12]`. -/
def encUpperField (cmd : CmdWord) : BitVec 4 := cmd.extractLsb' 12 4

/-- R61, R64(d): a stream operation takes no operand from the command word. -/
def streamOp (cmd : CmdWord) (i : Instr) : Except Reject Instr :=
  if opdField cmd = 0#8 then .ok i else .error .streamOperand

/-- R61, R62: the operation a command word with RSV = 0 spells, by its OP field. -/
def decodeOp (cmd : CmdWord) : Except Reject Instr :=
  match (opField cmd).toNat with
  | 0 => if encUpperField cmd = 0#4 then .ok (.enc (nibbleField cmd)) else .error .encUpperOperand
  | 1 => .ok (.dec (opdField cmd))
  | 2 => streamOp cmd .wrap
  | 3 => streamOp cmd .strip
  | 4 => streamOp cmd .encodeFrame
  | 5 => streamOp cmd .decodeFrame
  | _ => .error .reservedOp

/-- R60, R64: the operation a command word spells. R64(e) is about `sin`, so it is checked where the operation runs. -/
def decode (cmd : CmdWord) : Except Reject Instr :=
  if rsvField cmd = 0#5 then decodeOp cmd else .error .reservedBits

/-- R61: the OP value of an operation. -/
def opcode : Instr → BitVec 3
  | .enc _ => 0#3
  | .dec _ => 1#3
  | .wrap => 2#3
  | .strip => 3#3
  | .encodeFrame => 4#3
  | .decodeFrame => 5#3

/-- R61, R62: the OPD byte of an operation's command word. -/
def operandByte : Instr → BitVec 8
  | .enc n => n.setWidth 8
  | .dec b => b
  | .wrap => 0#8
  | .strip => 0#8
  | .encodeFrame => 0#8
  | .decodeFrame => 0#8

/-- R60: the command word of an operation, `{OPD, RSV, OP}` with RSV = 0. -/
def encode (i : Instr) : CmdWord :=
  (operandByte i ++ 0#5) ++ opcode i

/-- The operation the decoder reads from the table's numbering of a command word: one 16-bit word, bit 0 the least
significant (R60), every bit above `nbits` 0. -/
def decodeTableWord (nbits w : Nat) : Option Instr :=
  if nbits ≤ 16 ∧ w < 2 ^ nbits then
    match decode (BitVec.ofNat 16 w) with
    | .ok i => some i
    | .error _ => none
  else none

end Sys2Proof
end

