-- ==== Sys2Proof/Machine/State.lean ====
section
/-! DEFINITION. What HAMCORE and its host hold: the build parameters (spec R24), the ports (R27, R28), and the host's
moves still to come (R51). HAMCORE has no register, no program counter, no memory and no hidden state (R20, R21, R23,
R25, R26), so nothing else stands here. -/

namespace Sys2Proof.Machine

/-- R160: "HAMCORE has exactly four error classes". -/
inductive ErrorClass where
  /-- R162: the frame lacks the header or the trailer. -/
  | syncError
  /-- R163: the payload length is 0 or not a multiple of 4. -/
  | invalidPayloadLength
  /-- R164: the payload region is not a whole number of groups. -/
  | malformedGroupError
  /-- R165: the command breaks R64. -/
  | illegalOperation
deriving DecidableEq, Repr

/-- R161: the outcome of an operation. The codes 5, 6 and 7 are never produced and have no constructor. -/
inductive Status where
  /-- Status 0. -/
  | ok
  /-- Status 1 to 4. -/
  | error (e : ErrorClass)
deriving DecidableEq, Repr

/-- R138: the diagnostics of one decoded word, `(error, count, syndrome, word)`. -/
structure Diag where
  /-- R108: 1 exactly when a bit was flipped. -/
  error : Bit
  /-- R109: 0 to 2. -/
  count : Count
  /-- R101: the syndrome of the received word. -/
  syndrome : Syndrome
  /-- R107: the word after any flip. -/
  word : CodeWord
deriving DecidableEq, Repr

/-- R107: what the corrector makes of one received word. -/
structure Decoded where
  /-- R107: the low four bits of the corrected word. -/
  nibble : Nibble
  /-- R107: the diagnostics. -/
  diag : Diag
deriving DecidableEq, Repr

/-- R27, R28: one result, the five output ports. A data output that is `none` is absent. -/
structure Result where
  /-- R161: the outcome. -/
  status : Status
  /-- R28: the fixed-size result of ENC and DEC. -/
  rdata : Option (BitVec 8)
  /-- R28: the diagnostics of DEC. -/
  rdiag : Option (BitVec 14)
  /-- R28: the stream result. -/
  sout : Option Bits
  /-- R138: the per-group records of DECODE_FRAME. -/
  gdiag : Option (List Diag)
deriving DecidableEq, Repr

/-- R51: what the host may do. A host has at most one operation outstanding (R186), so a move that issues an operation
covers the wait for its result too. -/
inductive HostMove where
  /-- R51 "issue": present `cmd` and `sin` together and wait for the result. -/
  | issue (cmd : CmdWord) (sin : Bits)
  /-- R51 "reset", between operations (R180). -/
  | reset
  /-- R51, R182: present `cmd` and `sin`, and assert reset before the operation has ended. -/
  | issueCutByReset (cmd : CmdWord) (sin : Bits)
deriving DecidableEq, Repr

/-- The block with its ports, and the host at its other side. -/
structure State where
  /-- R24: the static build parameters; no step changes them. -/
  params : Params
  /-- R27: the `cmd` port, as the transaction last presented left it. -/
  cmd : CmdWord
  /-- R27: the `sin` port, as the transaction last presented left it. -/
  sin : Bits
  /-- R27, R29: the result ports; `none` is "hold no result". -/
  result : Option Result
  /-- R51: the host's moves still to come, the next one first. They are the host's, not a buffer of HAMCORE (R26). -/
  moves : List HostMove
deriving DecidableEq, Repr

/-- HAMCORE never stops: an error ends one operation with a status, and the next command is performed as if the failed
one had never been issued (R168). So no step of the model faults and there is no reason to name. -/
inductive Fault where
deriving DecidableEq, Repr

/-- Why the model gives a step no meaning. -/
inductive Refusal where
  /-- Raised by an arm of `exec` whose instruction has no meaning yet; no arm is left so. Safe. -/
  | notModelled (mnemonic : String)
  /-- Raised by ENCODE_FRAME and DECODE_FRAME when the operand is longer than `MAX_NIBBLES` groups. R8: such an operand
  "is outside this spec, and a model refuses it". Never raised where `MAX_NIBBLES` is unbounded, as it is at reset. Safe. -/
  | operandExceedsMaxNibbles
deriving DecidableEq, Repr

/-- The outcome of one operation or step. -/
abbrev Outcome := Host.Outcome State Fault Refusal

/-- R29, R180: a block with build parameters `p` right after reset, with no result on its outputs. The host has presented
nothing: DESIGN CHOICE (log 2), the input ports then carry the word 0 and the empty sequence. -/
def State.afterReset (p : Params) (moves : List HostMove) : State :=
  { params := p, cmd := 0#16, sin := [], result := none, moves := moves }

/-- R180, R24: this hardware right after reset, its host about to do nothing (log 3). -/
def State.reset : State := State.afterReset Params.hamcore []

end Sys2Proof.Machine
end

