-- ==== Sys2Proof/Machine/Flags.lean ====
section
/-! DEFINITION. Parity, the syndrome, the flip position, and the two diagnostic values `error` and `count` (spec R11,
R100 to R109). HAMCORE has no persistent flags (R22): these are fields of one result. -/

namespace Sys2Proof.Machine

/-- R11 `parity`: the exclusive-or of one-bit values. -/
def parity (bits : Bits) : Bit :=
  bits.foldr xor false

/-- The bits of `v` at the positions `ps`. -/
def bitsAt (v : CodeWord) (ps : List Nat) : Bits :=
  ps.map v.getLsbD

/-- R100: the check bit over bits 1, 2, 3 and 4. -/
def check0 (b : CodeWord) : Bit := parity (bitsAt b [1, 2, 3, 4])

/-- R100: the check bit over bits 0, 2, 3 and 5. -/
def check1 (b : CodeWord) : Bit := parity (bitsAt b [0, 2, 3, 5])

/-- R100: the check bit over bits 0, 1, 3 and 6. -/
def check2 (b : CodeWord) : Bit := parity (bitsAt b [0, 1, 3, 6])

/-- R101: `(s0 << 2) | (s1 << 1) | s2`. -/
def syndrome (b : CodeWord) : Syndrome :=
  BitVec.ofBool (check0 b) ++ BitVec.ofBool (check1 b) ++ BitVec.ofBool (check2 b)

/-- R104: the bit in 0..6 whose column is the nonzero syndrome. The syndrome 0 flips nothing and has no entry in the
rule's table: `correct` never asks for it. -/
def columnFlip (s : Syndrome) : Nat :=
  match s.toNat with
  | 1 => 6
  | 2 => 5
  | 3 => 0
  | 4 => 4
  | 5 => 1
  | 6 => 2
  | 7 => 3
  | _ => 0

/-- R104, R105: the bit a nonzero syndrome selects. -/
def flipPosition (m : FlipMap) (s : Syndrome) : Nat :=
  match m with
  | .column => columnFlip s
  | .shift => s.toNat

/-- R107: the word after any flip. -/
def correct (m : FlipMap) (b : CodeWord) : CodeWord :=
  if syndrome b = 0#3 then b else b ^^^ (1#8 <<< flipPosition m (syndrome b))

/-- R106: the overall parity check of a word fails when the parity of bits 0 to 6 is not bit 7. -/
def parityFails (word : CodeWord) : Bool :=
  parity (bitsAt word [0, 1, 2, 3, 4, 5, 6]) != word.getLsbD 7

/-- R108: `error` is 1 exactly when the syndrome is nonzero. -/
def errorFlag (b : CodeWord) : Bit :=
  syndrome b != 0#3

/-- R109: 1 for a flip, plus 1 for a failing parity check of the word after the flip. -/
def correctionCount (m : FlipMap) (b : CodeWord) : Count :=
  BitVec.ofNat 2 ((errorFlag b).toNat + (parityFails (correct m b)).toNat)

end Sys2Proof.Machine
end

