-- ==== Sys2Proof/Machine/Ops.lean ====
section
/-! DEFINITION. The operations every meaning shares: presenting a command, giving a result, raising an error, reset, and
the bound on operands (spec R8, R13, R27, R28, R45, R168, R180). HAMCORE has no trap to enter or to return from (R169):
`raise` is the whole of what an error does. -/

namespace Sys2Proof.Machine

/-- R161: the 3-bit code of an error class. -/
def ErrorClass.code : ErrorClass → BitVec 3
  | .syncError => 1#3
  | .invalidPayloadLength => 2#3
  | .malformedGroupError => 3#3
  | .illegalOperation => 4#3

/-- R161: the 3-bit value of the `status` port. -/
def Status.code : Status → BitVec 3
  | .ok => 0#3
  | .error e => e.code

/-- R168: the result of an operation that ended with an error: every data output is absent. -/
def Result.ofError (e : ErrorClass) : Result :=
  { status := .error e, rdata := none, rdiag := none, sout := none, gdiag := none }

/-- R28, row ENC. -/
def Result.ofEnc (c : CodeWord) : Result :=
  { status := .ok, rdata := some c, rdiag := none, sout := none, gdiag := none }

/-- R28, row DEC: the diagnostics port, `{word, syndrome, count, error}`. -/
def packDiag (d : Diag) : BitVec 14 :=
  d.word ++ d.syndrome ++ d.count ++ BitVec.ofBool d.error

/-- R28, row DEC: `rdata[3:0]` is the nibble and `rdata[7:4]` is 0. -/
def Result.ofDec (d : Decoded) : Result :=
  { status := .ok, rdata := some (d.nibble.setWidth 8), rdiag := some (packDiag d.diag), sout := none, gdiag := none }

/-- R28, rows WRAP, STRIP and ENCODE_FRAME. -/
def Result.ofStream (out : Bits) : Result :=
  { status := .ok, rdata := none, rdiag := none, sout := some out, gdiag := none }

/-- R28, row DECODE_FRAME. -/
def Result.ofDecodedFrame (out : Bits) (diags : List Diag) : Result :=
  { status := .ok, rdata := none, rdiag := none, sout := some out, gdiag := some diags }

/-- R27: put a result on the result ports. -/
def State.give (s : State) (r : Result) : State :=
  { s with result := some r }

/-- R13 `return r`: the operation ends with result `r`. -/
def returns (r : Result) (s : State) : Outcome :=
  .next (s.give r)

/-- R13 `raise E`, R168: the operation ends with error class `e` and no data output, and nothing else changes. -/
def raise (e : ErrorClass) (s : State) : Outcome :=
  .next (s.give (Result.ofError e))

/-- R64(e), R165: an operation that takes no stream ends with IllegalOperation, before any part of it is done, when `sin`
is not empty. -/
def requireNoStream (s : State) (r : Result) : Outcome :=
  if s.sin = [] then returns r s else raise .illegalOperation s

/-- R8: whether an operand of `len` bits is longer than `MAX_NIBBLES` groups of `groupBits` bits with `fixedBits` bits
around them. -/
def exceedsMaxNibbles (p : Params) (fixedBits groupBits len : Nat) : Bool :=
  match p.maxNibbles with
  | none => false
  | some m => decide (fixedBits + groupBits * m < len)

/-- R8: run an operation unless its operand is outside the spec. -/
def withinMaxNibbles (s : State) (fixedBits groupBits : Nat) (run : Outcome) : Outcome :=
  if exceedsMaxNibbles s.params fixedBits groupBits s.sin.length then .refused .operandExceedsMaxNibbles else run

/-- R27: the host's transaction stands on the input ports, `cmd` and `sin` together. -/
def State.present (s : State) (cmd : CmdWord) (sin : Bits) : State :=
  { s with cmd := cmd, sin := sin }

/-- R51: the host has made its first move, and `rest` is still to come. -/
def State.hostGoesOn (s : State) (rest : List HostMove) : State :=
  { s with moves := rest }

/-- R180, R181: reset keeps the build parameters and leaves no result on the outputs. The host's later moves are its own. -/
def State.resetBlock (s : State) : State :=
  State.afterReset s.params s.moves

end Sys2Proof.Machine
end

