-- ==== Sys2Proof/Machine/Corrector.lean ====
section
/-! DEFINITION. DECU, the single-error corrector: the function `Decode` and the operation DEC (spec R107). -/

namespace Sys2Proof.Machine

/-- R107 `Decode(b)`. -/
def hammingDecode (m : FlipMap) (b : CodeWord) : Decoded :=
  { nibble := (correct m b).setWidth 4
    diag :=
      { error := errorFlag b
        count := correctionCount m b
        syndrome := syndrome b
        word := correct m b } }

/-- R107: DEC. -/
def execDec (b : CodeWord) (s : State) : Outcome :=
  requireNoStream s (Result.ofDec (hammingDecode s.params.flipMap b))

end Sys2Proof.Machine
end

