-- ==== Sys2Proof/Machine/Encoder.lean ====
section
/-! DEFINITION. ENCU, the parity generator: the function `Encode` of spec R80 and the operation ENC (R81). -/

namespace Sys2Proof.Machine

/-- R80 `Encode(n)`: `{p, h2, h1, h0, d3, d2, d1, d0}`. -/
def hammingEncode (n : Nibble) : CodeWord :=
  let d0 := n.getLsbD 0
  let d1 := n.getLsbD 1
  let d2 := n.getLsbD 2
  let d3 := n.getLsbD 3
  let h0 := parity [d1, d2, d3]
  let h1 := parity [d0, d2, d3]
  let h2 := parity [d0, d1, d3]
  let p := parity [d0, d1, d2, d3, h0, h1, h2]
  BitVec.ofBool p ++ BitVec.ofBool h2 ++ BitVec.ofBool h1 ++ BitVec.ofBool h0 ++ n

/-- R81: ENC. -/
def execEnc (n : Nibble) (s : State) : Outcome :=
  requireNoStream s (Result.ofEnc (hammingEncode n))

end Sys2Proof.Machine
end

