-- ==== Sys2Proof/Machine/Operands.lean ====
section
/-! DEFINITION. How operands and results stand in bit sequences: serialising and its inverse (spec R14, R41), the
markers (R130), the split of a payload into nibbles and of a region into groups (R42, R68, R69, R134). -/

namespace Sys2Proof.Machine

/-- R14 `ser_k(v)`: the low `k` bits of `v`, most significant first. -/
def ser {n : Nat} : Nat → BitVec n → Bits
  | 0, _ => []
  | k + 1, v => v.getLsbD k :: ser k v

/-- R14 `deser(S)`: the unsigned value of `S`, first bit most significant. -/
def deser : Bits → Nat
  | [] => 0
  | b :: rest => b.toNat * 2 ^ rest.length + deser rest

/-- R130: the header, `1111`. -/
def header : Bits := [true, true, true, true]

/-- R130: the trailer, `0000`. -/
def trailer : Bits := [false, false, false, false]

/-- R67: `HEADER ++ payload region ++ TRAILER`. -/
def frameOf (region : Bits) : Bits :=
  header ++ region ++ trailer

/-- R132: the payload region `F[4 .. L-4)` of a frame that carries both markers; `none` where it does not. -/
def regionOf (frame : Bits) : Option Bits :=
  if 8 ≤ frame.length ∧ frame.take 4 = header ∧ frame.drop (frame.length - 4) = trailer then
    some ((frame.drop 4).take (frame.length - 8))
  else none

/-- R42: the first `count` consecutive groups of `size` bits, in order. -/
def chunks (size : Nat) : Nat → Bits → List Bits
  | 0, _ => []
  | count + 1, bits => bits.take size :: chunks size count (bits.drop size)

/-- R68, R134: the nibbles of a payload, in order. -/
def payloadNibbles (payload : Bits) : List Nibble :=
  (chunks 4 (payload.length / 4) payload).map fun g => BitVec.ofNat 4 (deser g)

/-- R69, R137: the received words of a payload region with groups of `w` bits, each zero-extended to 8 bits. -/
def regionWords (w : Nat) (region : Bits) : List CodeWord :=
  (chunks w (region.length / w) region).map fun g => BitVec.ofNat 8 (deser g)

/-- R69: the groups that carry the code words `cs`. -/
def serWords (w : Nat) (cs : List CodeWord) : Bits :=
  cs.flatMap (ser w)

/-- R68: the payload bits of decoded nibbles. -/
def serNibbles (ns : List Nibble) : Bits :=
  ns.flatMap (ser 4)

end Sys2Proof.Machine
end

