-- ==== Sys2Proof/Machine/Framer.lean ====
section
/-! DEFINITION. FRMU, the 4-bit framer: WRAP, STRIP, ENCODE_FRAME and DECODE_FRAME (spec R131, R132, R135, R137). -/

namespace Sys2Proof.Machine

/-- R131: WRAP. -/
def execWrap (s : State) : Outcome :=
  returns (Result.ofStream (frameOf s.sin)) s

/-- R132: STRIP. -/
def execStrip (s : State) : Outcome :=
  match regionOf s.sin with
  | none => raise .syncError s
  | some region => returns (Result.ofStream region) s

/-- R135: the groups of a payload, `ser_W(Encode(n_i))` for each nibble in order. -/
def encodeGroups (w : GroupWidth) (payload : Bits) : Bits :=
  serWords w.bits ((payloadNibbles payload).map hammingEncode)

/-- R135: the payload check and the frame. -/
def encodeFrameBody (s : State) : Outcome :=
  if s.sin.length = 0 ∨ s.sin.length % 4 ≠ 0 then raise .invalidPayloadLength s
  else returns (Result.ofStream (frameOf (encodeGroups s.params.width s.sin))) s

/-- R135, R8: ENCODE_FRAME. -/
def execEncodeFrame (s : State) : Outcome :=
  withinMaxNibbles s 0 4 (encodeFrameBody s)

/-- R137: `Decode` of each group of a region, in order. -/
def decodeGroups (p : Params) (region : Bits) : List Decoded :=
  (regionWords p.width.bits region).map (hammingDecode p.flipMap)

/-- R137, R140: the marker check, then the group-length check, then the groups. -/
def decodeFrameBody (s : State) : Outcome :=
  match regionOf s.sin with
  | none => raise .syncError s
  | some region =>
    if region.length % s.params.width.bits ≠ 0 then raise .malformedGroupError s
    else
      let ds := decodeGroups s.params region
      returns (Result.ofDecodedFrame (serNibbles (ds.map Decoded.nibble)) (ds.map Decoded.diag)) s

/-- R137, R8: DECODE_FRAME. -/
def execDecodeFrame (s : State) : Outcome :=
  withinMaxNibbles s 8 s.params.width.bits (decodeFrameBody s)

end Sys2Proof.Machine
end

