-- ==== Sys2Proof/Machine/Dispatch.lean ====
section
/-! DEFINITION. One arm per operation (spec R3, R61). -/

namespace Sys2Proof.Machine

def exec (i : Instr) (s : State) : Host.Outcome State Fault Refusal :=
  match i with
  | .enc n => Sys2Proof.Machine.execEnc n s
  | .dec b => Sys2Proof.Machine.execDec b s
  | .wrap => Sys2Proof.Machine.execWrap s
  | .strip => Sys2Proof.Machine.execStrip s
  | .encodeFrame => Sys2Proof.Machine.execEncodeFrame s
  | .decodeFrame => Sys2Proof.Machine.execDecodeFrame s

end Sys2Proof.Machine
end

