-- ==== Sys2Proof/Machine/Channel.lean ====
section
/-! DEFINITION. The command channel: what one move of the host makes HAMCORE do (spec R27, R48, R51, R165, R180, R182). -/

namespace Sys2Proof.Machine

/-- R165, R167: the command word on `cmd` is checked before anything else; a word that spells no operation ends with
IllegalOperation, any other is performed. -/
def performCommand (s : State) : Outcome :=
  match decode s.cmd with
  | .ok i => exec i s
  | .error _ => raise .illegalOperation s

/-- R51: the host's next move, with the state in which the moves after it are the ones still to come. R182: an operation
that reset cuts short gives no result and leaves nothing behind, so it leaves what reset leaves. -/
def performMove (m : HostMove) (s : State) : Outcome :=
  match m with
  | .issue cmd sin => performCommand (s.present cmd sin)
  | .reset => .next s.resetBlock
  | .issueCutByReset cmd sin => .next (s.present cmd sin).resetBlock

/-- R48: moves are taken one at a time, each in full, in the host's order. DESIGN CHOICE (log 4): with no move to come,
the block waits and nothing changes. -/
def nextMove (s : State) : Outcome :=
  match s.moves with
  | [] => .next s
  | m :: rest => performMove m (s.hostGoesOn rest)

/-- R60: the command word `w` of the table's numbering, issued as the host's next move with the stream operand that
stands on `sin`. -/
def State.issueNext (s : State) (w : Nat) : State :=
  { s with moves := .issue (BitVec.ofNat 16 w) s.sin :: s.moves }

end Sys2Proof.Machine
end

