-- ==== Sys2Proof/Machine/Step.lean ====
section
/-! DEFINITION. One step of the machine: one move of the host, performed in full (spec R48). -/

namespace Sys2Proof.Machine

/-- R48, R51: one step is the host's next move. -/
def step (s : State) : Host.Outcome State Fault Refusal :=
  nextMove s

/-- HAMCORE fetches nothing (R21, R50): its next instruction is the command the host issues next. Every command word has
16 bits (R60), so `nbits` adds nothing to `w`. The stream operand is the one that stands on `sin` (log 3). -/
def State.withFetchWord (s : State) (_nbits w : Nat) : State :=
  s.issueNext w

end Sys2Proof.Machine
end

