-- ==== Sys2Proof/Machine/Assembly.lean ====
section
/-! DEFINITION. The assembly language of HAMCORE: lines, their text, and their command words (spec R70, R71). Text is a
list of characters. -/

namespace Sys2Proof.Machine

/-- R70: one line of assembly. -/
inductive AsmLine where
  /-- `ENC <nibble>`. -/
  | enc (n : Nibble)
  /-- `DEC <byte>`. -/
  | dec (b : CodeWord)
  /-- `WRAP "<bits>"`. -/
  | wrap (bits : Bits)
  /-- `STRIP "<bits>"`. -/
  | strip (bits : Bits)
  /-- `ENCODE_FRAME "<bits>"`. -/
  | encodeFrame (bits : Bits)
  /-- `DECODE_FRAME "<bits>"`. -/
  | decodeFrame (bits : Bits)
deriving DecidableEq, Repr

/-- R71: what a command disassembles to. -/
inductive Disassembly where
  /-- A legal command: the line that assembles to it. -/
  | line (l : AsmLine)
  /-- `.illegal 0x<cmd>`: an illegal word has no mnemonic. -/
  | illegal (cmd : CmdWord)
deriving DecidableEq, Repr

/-- R70: the operation a line names. -/
def AsmLine.instr : AsmLine → Instr
  | .enc n => .enc n
  | .dec b => .dec b
  | .wrap _ => .wrap
  | .strip _ => .strip
  | .encodeFrame _ => .encodeFrame
  | .decodeFrame _ => .decodeFrame

/-- R70: the stream operand of a line; ENC and DEC have none. -/
def AsmLine.stream : AsmLine → Bits
  | .enc _ => []
  | .dec _ => []
  | .wrap bits => bits
  | .strip bits => bits
  | .encodeFrame bits => bits
  | .decodeFrame bits => bits

/-- R70: the command word and the stream operand a line assembles to. -/
def assemble (l : AsmLine) : CmdWord × Bits :=
  (encode l.instr, l.stream)

/-- R71: the line of an operation and its stream operand. -/
def lineOf (i : Instr) (sin : Bits) : AsmLine :=
  match i with
  | .enc n => .enc n
  | .dec b => .dec b
  | .wrap => .wrap sin
  | .strip => .strip sin
  | .encodeFrame => .encodeFrame sin
  | .decodeFrame => .decodeFrame sin

/-- R71: "Check rule R64 first", then the mnemonic and operand of the word. -/
def disassemble (cmd : CmdWord) (sin : Bits) : Disassembly :=
  match decode cmd with
  | .error _ => .illegal cmd
  | .ok i => if WellFormed i sin then .line (lineOf i sin) else .illegal cmd

/-- The mnemonics of R61, upper case (R70). -/
def mnemonic : Instr → List Char
  | .enc _ => ['E', 'N', 'C']
  | .dec _ => ['D', 'E', 'C']
  | .wrap => ['W', 'R', 'A', 'P']
  | .strip => ['S', 'T', 'R', 'I', 'P']
  | .encodeFrame => ['E', 'N', 'C', 'O', 'D', 'E', '_', 'F', 'R', 'A', 'M', 'E']
  | .decodeFrame => ['D', 'E', 'C', 'O', 'D', 'E', '_', 'F', 'R', 'A', 'M', 'E']

/-- The digit of a value below 16. DESIGN CHOICE (log 5): hexadecimal digits are written upper case. -/
def digitChar (d : Nat) : Char :=
  if d < 10 then Char.ofNat (48 + d) else Char.ofNat (55 + d)

/-- The value of a digit. DESIGN CHOICE (log 5): a hexadecimal digit may be read in either case. -/
def digitValue (c : Char) : Option Nat :=
  if 48 ≤ c.toNat ∧ c.toNat ≤ 57 then some (c.toNat - 48)
  else if 65 ≤ c.toNat ∧ c.toNat ≤ 70 then some (c.toNat - 55)
  else if 97 ≤ c.toNat ∧ c.toNat ≤ 102 then some (c.toNat - 87)
  else none

/-- The number that digits of one radix spell after `acc`. -/
def readDigits (radix acc : Nat) : List Char → Option Nat
  | [] => some acc
  | c :: cs =>
    match digitValue c with
    | none => none
    | some d => if d < radix then readDigits radix (acc * radix + d) cs else none

/-- A number has at least one digit. -/
def readNatural (radix : Nat) (cs : List Char) : Option Nat :=
  if cs = [] then none else readDigits radix 0 cs

/-- R70: "A number is decimal, hexadecimal with `0x`, or binary with `0b`." -/
def readNumber : List Char → Option Nat
  | '0' :: 'x' :: cs => readNatural 16 cs
  | '0' :: 'b' :: cs => readNatural 2 cs
  | cs => readNatural 10 cs

/-- A number that `w` bits hold: 0..15 for a nibble, 0..255 for a byte (R70). -/
def readField (w : Nat) (cs : List Char) : Option (BitVec w) :=
  match readNumber cs with
  | none => none
  | some v => if v < 2 ^ w then some (BitVec.ofNat w v) else none

/-- The bits up to the closing quotation mark, which ends the line. -/
def readBits : List Char → Option Bits
  | ['"'] => some []
  | '0' :: cs => (readBits cs).map (false :: ·)
  | '1' :: cs => (readBits cs).map (true :: ·)
  | _ => none

/-- R70: a string of the characters 0 and 1, possibly empty, in quotation marks; its first character is `sin[0]`. -/
def readString : List Char → Option Bits
  | '"' :: cs => readBits cs
  | _ => none

/-- What follows a word and one space at the start of a line. -/
def afterWord : List Char → List Char → Option (List Char)
  | [], ' ' :: cs => some cs
  | [], _ => none
  | p :: ps, c :: cs => if p = c then afterWord ps cs else none
  | _ :: _, [] => none

/-- R70: read one line. DESIGN CHOICE (log 5): exactly one space stands between mnemonic and operand, and nothing else
stands on the line. -/
def parseLine (text : List Char) : Option AsmLine :=
  (((afterWord (mnemonic (.enc 0#4)) text).bind (readField 4)).map AsmLine.enc).or <|
  (((afterWord (mnemonic (.dec 0#8)) text).bind (readField 8)).map AsmLine.dec).or <|
  (((afterWord (mnemonic .wrap) text).bind readString).map AsmLine.wrap).or <|
  (((afterWord (mnemonic .strip) text).bind readString).map AsmLine.strip).or <|
  (((afterWord (mnemonic .encodeFrame) text).bind readString).map AsmLine.encodeFrame).or <|
  ((afterWord (mnemonic .decodeFrame) text).bind readString).map AsmLine.decodeFrame

/-- Hexadecimal digits, the least significant last. -/
def writeHex : Nat → Nat → List Char
  | 0, _ => []
  | digits + 1, v => writeHex digits (v / 16) ++ [digitChar (v % 16)]

/-- A nibble in decimal. -/
def writeNibble (n : Nibble) : List Char :=
  if n.toNat < 10 then [digitChar n.toNat] else ['1', digitChar (n.toNat - 10)]

/-- R70: a bit as its character. -/
def bitChar (b : Bit) : Char :=
  if b then '1' else '0'

/-- R70, R71: bits as a quoted string. -/
def writeBits (bits : Bits) : List Char :=
  '"' :: (bits.map bitChar ++ ['"'])

/-- R71: the operand of a line. DESIGN CHOICE (log 5): a nibble is printed in decimal and a byte in hexadecimal. -/
def writeOperand : AsmLine → List Char
  | .enc n => writeNibble n
  | .dec b => '0' :: 'x' :: writeHex 2 b.toNat
  | .wrap bits => writeBits bits
  | .strip bits => writeBits bits
  | .encodeFrame bits => writeBits bits
  | .decodeFrame bits => writeBits bits

/-- R71: the text of a line. -/
def writeLine (l : AsmLine) : List Char :=
  mnemonic l.instr ++ ' ' :: writeOperand l

/-- R71: the text of a disassembly; an illegal word is printed as `.illegal 0x<cmd>` with four digits. -/
def writeDisassembly : Disassembly → List Char
  | .line l => writeLine l
  | .illegal cmd => ['.', 'i', 'l', 'l', 'e', 'g', 'a', 'l', ' ', '0', 'x'] ++ writeHex 4 cmd.toNat

end Sys2Proof.Machine
end

