-- ==== Sys2Proof/Safety.lean ====
section
/-! DEFINITION. The terms the claims use: a good state (results shaped as spec R28, R108, R109, R138 and R168 shape them, and a
legal build, R6 to R8), and what it is for an operation to answer a result and leave everything else as it was. -/

namespace Sys2Proof.Machine

/-- R108, R109: a record's error flag is 1 exactly when its syndrome is nonzero, and its count is 0 to 2, at least 1 after a
flip. -/
def Diag.wf (d : Diag) : Bool :=
  (d.error == (d.syndrome != 0#3)) && decide (d.count ≠ 3#2) && (!d.error || d.count != 0#2)

/-- R28, rows ENC and DEC: `rdata` alone, or `rdata[7:4]` = 0 with diagnostics whose word has the nibble of `rdata`, whose
error flag is the syndrome's, and whose count is not 3. -/
def Result.fixedShape (r : Result) : Bool :=
  r.sout.isNone && r.gdiag.isNone &&
    match r.rdata, r.rdiag with
    | some _, none => true
    | some d, some g =>
      d.extractLsb' 4 4 == 0#4 && d.extractLsb' 0 4 == g.extractLsb' 6 4 &&
        (g.getLsbD 0 == (g.extractLsb' 3 3 != 0#3)) && g.extractLsb' 1 2 != 3#2
    | none, _ => false

/-- R28, rows of the stream operations: `sout`, with one well-formed record per 4 bits of it where there are records. -/
def Result.streamShape (r : Result) : Bool :=
  r.rdata.isNone && r.rdiag.isNone &&
    match r.sout, r.gdiag with
    | some _, none => true
    | some out, some ds => out.length == 4 * ds.length && ds.all Diag.wf
    | none, _ => false

/-- R168: every data output is absent. -/
def Result.noData (r : Result) : Bool :=
  r.rdata.isNone && r.rdiag.isNone && r.sout.isNone && r.gdiag.isNone

/-- R28, R45, R168: OK with the outputs of one of the operations, or an error with none. -/
def Result.wf (r : Result) : Bool :=
  match r.status with
  | .ok => r.fixedShape || r.streamShape
  | .error _ => r.noData

/-- The build is legal, and the result ports hold no result or a well-formed one. -/
def State.Inv (s : State) : Prop :=
  s.params.wf = true ∧ ∀ r, s.result = some r → r.wf = true

/-- R8: where `MAX_NIBBLES` is bounded, a payload of `len` bits is no longer than that. -/
def fitsPayload (p : Params) (len : Nat) : Prop :=
  ∀ m, p.maxNibbles = some m → len ≤ 4 * m

/-- R8: where `MAX_NIBBLES` is bounded, a frame of `len` bits carries no more groups than that. -/
def fitsFrame (p : Params) (len : Nat) : Prop :=
  ∀ m, p.maxNibbles = some m → len ≤ 8 + p.width.bits * m

/-- The operation completes with result `r`, and nothing but the result ports has changed. -/
def answers (i : Instr) (s : State) (r : Result) : Prop :=
  exec i s = .next { params := s.params, cmd := s.cmd, sin := s.sin, result := some r, moves := s.moves }

/-- ENC answers OK with the code word `c` on `rdata` (R28). -/
def answersEnc (n : Nibble) (s : State) (c : CodeWord) : Prop :=
  answers (.enc n) s { status := .ok, rdata := some c, rdiag := none, sout := none, gdiag := none }

/-- DEC answers OK with `nibble` on `rdata[3:0]`, 0 on `rdata[7:4]`, and `rdiag` = `{word, syndrome, count, error}` (R28). -/
def answersDec (b : CodeWord) (s : State) (nibble : Nibble) (d : Diag) : Prop :=
  answers (.dec b) s
    { status := .ok
      rdata := some (0#4 ++ nibble)
      rdiag := some (d.word ++ d.syndrome ++ d.count ++ BitVec.ofBool d.error)
      sout := none
      gdiag := none }

/-- A stream operation answers OK with `out` on `sout` and nothing else (R28). -/
def answersStream (i : Instr) (s : State) (out : Bits) : Prop :=
  answers i s { status := .ok, rdata := none, rdiag := none, sout := some out, gdiag := none }

/-- DECODE_FRAME answers OK with `out` on `sout` and the records `ds` on `gdiag` (R28). -/
def answersFrame (s : State) (out : Bits) (ds : List Diag) : Prop :=
  answers .decodeFrame s { status := .ok, rdata := none, rdiag := none, sout := some out, gdiag := some ds }

/-- The operation ends with error class `e` and no data output (R168). -/
def answersError (i : Instr) (s : State) (e : ErrorClass) : Prop :=
  answers i s { status := .error e, rdata := none, rdiag := none, sout := none, gdiag := none }

/-- R132: the frame starts with `1111` and ends with `0000`, with no overlap. -/
def hasMarkers (frame : Bits) : Prop :=
  8 ≤ frame.length ∧ frame.take 4 = [true, true, true, true] ∧
    frame.drop (frame.length - 4) = [false, false, false, false]

/-- The number of bits of a word that are 1. -/
def weight (v : CodeWord) : Nat :=
  (List.range 8).countP fun i => v.getLsbD i

/-- The exclusive-or of bits 0 to 6 of a word (R66, R106). -/
def parityOfLowSeven (v : CodeWord) : Bit :=
  v.getLsbD 0 ^^ v.getLsbD 1 ^^ v.getLsbD 2 ^^ v.getLsbD 3 ^^ v.getLsbD 4 ^^ v.getLsbD 5 ^^ v.getLsbD 6

/-- R68: nibble `i` of a payload, `deser(P[4i .. 4i+4))`. -/
def payloadNibble (payload : Bits) (i : Nat) : Nibble :=
  BitVec.ofNat 4 (deser ((payload.drop (4 * i)).take 4))

/-- R69: word `i` of a payload region with groups of `w` bits, `zext_8(deser(R[w*i .. w*(i+1))))`. -/
def regionWord (w : Nat) (region : Bits) (i : Nat) : CodeWord :=
  BitVec.ofNat 8 (deser ((region.drop (w * i)).take w))

end Sys2Proof.Machine
end

