-- ==== Sys2Proof/Certificates/Slice0/Obligations.lean ====
section
/-! DEFINITION. The statements for the provers, in the terms of Sys2Proof/Safety.lean. -/

open Sys2Proof Sys2Proof.Machine

-- Encoding of commands (30_encoding.md)

/-- R60 to R65: encoding and decoding agree in both directions, so every 16-bit word is one operation's own word or is
rejected, and no word is two operations'. -/
def Obligations.DecodeAndEncodeAgree : Prop :=
  (∀ i : Instr, decode (encode i) = .ok i) ∧
  (∀ (cmd : CmdWord) (i : Instr), decode cmd = .ok i → encode i = cmd) ∧
  (∀ cmd : CmdWord, (∃ i, decode cmd = .ok i) ↔ illegalCommand cmd [] = false)

/-- 95_test_vectors.md section 2.6: words written out from R60 and R61 decode to what they stand for. -/
def Obligations.WordsOfTheSpecDecode : Prop :=
  decode 0x0500#16 = .ok (.enc 5#4) ∧ decode 0x0F00#16 = .ok (.enc 15#4) ∧ decode 0xD501#16 = .ok (.dec 0xD5#8) ∧
  decode 0x0002#16 = .ok .wrap ∧ decode 0x0003#16 = .ok .strip ∧ decode 0x0004#16 = .ok .encodeFrame ∧
  decode 0x0005#16 = .ok .decodeFrame ∧ decode 0x1500#16 = .error .encUpperOperand ∧
  decode 0x0008#16 = .error .reservedBits ∧ decode 0x0102#16 = .error .streamOperand ∧
  decode 0x0006#16 = .error .reservedOp ∧ decode 0x0007#16 = .error .reservedOp

/-- R62: ENC's nibble is `cmd[11:8]` and DEC's word is `cmd[15:8]`, bit by bit; the stream operations have no operand. -/
def Obligations.OperandsComeFromTheCommandWord : Prop :=
  ∀ cmd : CmdWord,
    (∀ n, decode cmd = .ok (.enc n) → ∀ i, i < 4 → n.getLsbD i = cmd.getLsbD (8 + i)) ∧
    (∀ b, decode cmd = .ok (.dec b) → ∀ i, i < 8 → b.getLsbD i = cmd.getLsbD (8 + i)) ∧
    (∀ i, decode cmd = .ok i → i = .wrap ∨ i = .strip ∨ i = .encodeFrame ∨ i = .decodeFrame →
      ∀ cmd', decode cmd' = .ok i → cmd' = cmd)

/-- R64, R165: an issued command ends with IllegalOperation, and nothing else is done, when one of the clauses (a) to (e)
holds; every other command is performed and does not end so. -/
def Obligations.IllegalCommandsAreExactlyR64 : Prop :=
  ∀ (s : State) (cmd : CmdWord) (sin : Bits) (rest : List HostMove),
    s.moves = .issue cmd sin :: rest →
    let op := (cmd.extractLsb' 0 3).toNat
    let illegal := op = 6 ∨ op = 7 ∨ (cmd.extractLsb' 3 5).toNat ≠ 0 ∨ (op = 0 ∧ (cmd.extractLsb' 12 4).toNat ≠ 0) ∨
      ((op = 2 ∨ op = 3 ∨ op = 4 ∨ op = 5) ∧ (cmd.extractLsb' 8 8).toNat ≠ 0) ∨ ((op = 0 ∨ op = 1) ∧ sin ≠ [])
    (illegal → step s = .next
      { params := s.params, cmd := cmd, sin := sin, moves := rest
        result := some { status := .error .illegalOperation, rdata := none, rdiag := none, sout := none, gdiag := none } }) ∧
    (¬ illegal → (∃ i, decode cmd = .ok i ∧ WellFormed i sin = true) ∧
      ∀ t r, step s = .next t → t.result = some r → r.status ≠ .error .illegalOperation)

/-- R71, R70: every line assembles to a legal command whose disassembly is that line, and printing the line and reading it
again gives it back (in the radix and spacing of log 5); an illegal command, and no other, disassembles as illegal. -/
def Obligations.DisassemblyUndoesAssembly : Prop :=
  (∀ l : AsmLine, disassemble (assemble l).1 (assemble l).2 = .line l) ∧
  (∀ l : AsmLine, parseLine (writeLine l) = some l) ∧
  (∀ cmd sin l, disassemble cmd sin = .line l → assemble l = (cmd, sin)) ∧
  (∀ cmd sin, disassemble cmd sin = .illegal cmd ↔ illegalCommand cmd sin = true)

-- The command channel (10_state.md, 20_memory.md, 70_reset_and_hazards.md)

/-- R27, R48: when the host's next move issues a word that decodes to `i`, the step is `exec i` with the transaction on
the input ports and the host's later moves still to come. -/
def Obligations.StepRunsTheDecodedOperation : Prop :=
  ∀ (s : State) (cmd : CmdWord) (sin : Bits) (rest : List HostMove) (i : Instr),
    s.moves = .issue cmd sin :: rest → decode cmd = .ok i →
    step s = exec i { params := s.params, cmd := cmd, sin := sin, result := s.result, moves := rest }

/-- R27, R60: a word of the opcode table placed by `withFetchWord` runs in the very next step, with the stream operand that
stands on `sin` (the model's form of a program, log 3). -/
def Obligations.PlacedTableWordRunsNext : Prop :=
  ∀ (s : State) (w : Nat) (i : Instr), decodeTableWord 16 w = some i →
    step (s.withFetchWord 16 w) =
      exec i { params := s.params, cmd := BitVec.ofNat 16 w, sin := s.sin, result := s.result, moves := s.moves }

/-- The model's choice (log 4): with no move to come, a step changes nothing. -/
def Obligations.StepWithNoMoveChangesNothing : Prop :=
  ∀ s : State, s.moves = [] → step s = .next s

/-- The frame of every operation: the build parameters, the input ports and the host's moves are as before, and there is
exactly one result. -/
def Obligations.OperationsChangeOnlyTheResult : Prop :=
  ∀ (i : Instr) (s t : State), exec i s = .next t →
    t.params = s.params ∧ t.cmd = s.cmd ∧ t.sin = s.sin ∧ t.moves = s.moves ∧ t.result ≠ none

/-- R30: the result of an issued command is a function of `W`, `FLIP_MAP`, `cmd` and `sin`, and of nothing else; whether
the model gives it one depends on `MAX_NIBBLES` besides (R8). -/
def Obligations.ResultDependsOnlyOnCommandAndParameters : Prop :=
  ∀ (s t : State) (cmd : CmdWord) (sin : Bits) (restS restT : List HostMove),
    s.params.width = t.params.width → s.params.flipMap = t.params.flipMap →
    s.moves = .issue cmd sin :: restS → t.moves = .issue cmd sin :: restT →
    (∀ s' t', step s = .next s' → step t = .next t' → s'.result = t'.result ∧ s'.result ≠ none) ∧
    (s.params.maxNibbles = t.params.maxNibbles → ((∃ s', step s = .next s') ↔ (∃ t', step t = .next t')))

/-- R46, R168: a command issued after another, failed or not, gives what it would have given had the other never been
issued; presenting the same command again gives the same result. -/
def Obligations.NoCommandAffectsALaterOne : Prop :=
  ∀ (s s1 : State) (c1 c2 : CmdWord) (sin1 sin2 : Bits) (rest : List HostMove),
    s.moves = .issue c1 sin1 :: .issue c2 sin2 :: rest → step s = .next s1 →
    step s1 = step { params := s.params, cmd := s.cmd, sin := s.sin, result := s.result, moves := .issue c2 sin2 :: rest } ∧
    ((c1, sin1) = (c2, sin2) → ∃ s2, step s1 = .next s2 ∧ s2.result = s1.result)

/-- R48: of a sequence of commands, run one after the other, the `k`-th result is the one the `k`-th command gives when
it is issued alone to a fresh block of the same build. -/
def Obligations.ResultsBelongToCommandsInOrder : Prop :=
  ∀ (cmds : List (CmdWord × Bits)) (rest : List HostMove) (s : State),
    s.params.maxNibbles = none → s.moves = cmds.map (fun c => HostMove.issue c.1 c.2) ++ rest →
    ∀ (k : Nat) (c : CmdWord × Bits), cmds[k]? = some c →
      ∃ (t u : State) (r : Result), Host.Core.run Sys2Proof.core (k + 1) s = .next t ∧
        step { params := s.params, cmd := 0#16, sin := [], result := none, moves := [.issue c.1 c.2] } = .next u ∧
        t.result = some r ∧ u.result = some r

/-- R29: from reset until the first result the outputs hold no result, and the parameters have their build values. -/
def Obligations.ResetHoldsNoResult : Prop :=
  State.reset.result = none ∧ State.reset.params.width.bits = 8 ∧ State.reset.params.flipMap = .column ∧
  (∀ (p : Params) (ms : List HostMove), (State.afterReset p ms).result = none ∧ (State.afterReset p ms).params = p) ∧
  (∀ s t : State, s.result = none → (∀ cmd sin rest, s.moves ≠ .issue cmd sin :: rest) → step s = .next t →
    t.result = none)

/-- R181, R182, R180: reset, between operations or during one, keeps the parameters, leaves no result, not even an error
status, and the next command gives exactly the result it would give at any other time. -/
def Obligations.ResetLeavesNothingBehind : Prop :=
  ∀ (s : State) (m : HostMove) (rest : List HostMove),
    (m = .reset ∨ ∃ cmd sin, m = .issueCutByReset cmd sin) → s.moves = m :: rest →
    ∃ t, step s = .next t ∧ t.params = s.params ∧ t.result = none ∧ t.moves = rest ∧
      ∀ (cmd : CmdWord) (sin : Bits) (rest' : List HostMove), rest = .issue cmd sin :: rest' →
        step t = step { params := s.params, cmd := s.cmd, sin := s.sin, result := s.result, moves := rest }

/-- R24: no number of steps changes the build parameters. -/
def Obligations.BuildParametersNeverChange : Prop :=
  ∀ (k : Nat) (s t : State), Host.Core.run Sys2Proof.core k s = .next t → t.params = s.params

/-- R187, R8: a step never faults, every operation ends with a result where `MAX_NIBBLES` is unbounded, and where it is
bounded only an operand of ENCODE_FRAME or DECODE_FRAME that is longer than the bound is refused (log 6). -/
def Obligations.OnlyOverlongOperandsAreRefused : Prop :=
  (∀ (s : State) (f : Fault), step s ≠ .fault f) ∧
  (∀ s : State, s.params.maxNibbles = none → ∃ t, step s = .next t) ∧
  (∀ (i : Instr) (s : State), (∃ r, exec i s = .refused r) ↔
    (i = .encodeFrame ∧ ¬ fitsPayload s.params s.sin.length) ∨ (i = .decodeFrame ∧ ¬ fitsFrame s.params s.sin.length)) ∧
  (∀ (i : Instr) (s : State) (r : Refusal), exec i s = .refused r → r = .operandExceedsMaxNibbles)

-- Results (10_state.md, 60_exceptions.md)

/-- R28, R45: an operation that answers OK gives all the outputs of its row and no other; one that ends with an error gives
none. -/
def Obligations.OutputsAreThoseOfTheOperation : Prop :=
  ∀ (i : Instr) (s t : State) (r : Result), exec i s = .next t → t.result = some r →
    (r.status ≠ .ok → r.rdata = none ∧ r.rdiag = none ∧ r.sout = none ∧ r.gdiag = none) ∧
    (r.status = .ok →
      (∀ n, i = .enc n → r.rdata = some (hammingEncode n) ∧ r.rdiag = none ∧ r.sout = none ∧ r.gdiag = none) ∧
      (∀ b, i = .dec b → r.sout = none ∧ r.gdiag = none ∧ ∃ d g, r.rdata = some d ∧ r.rdiag = some g ∧
        let x := hammingDecode s.params.flipMap b
        d.extractLsb' 0 4 = x.nibble ∧ d.extractLsb' 4 4 = 0#4 ∧ g.getLsbD 0 = x.diag.error ∧
        g.extractLsb' 1 2 = x.diag.count ∧ g.extractLsb' 3 3 = x.diag.syndrome ∧ g.extractLsb' 6 8 = x.diag.word) ∧
      (i = .wrap ∨ i = .encodeFrame → r.rdata = none ∧ r.rdiag = none ∧ r.gdiag = none ∧
        ∃ region, r.sout = some ([true, true, true, true] ++ region ++ [false, false, false, false])) ∧
      (i = .strip → r.rdata = none ∧ r.rdiag = none ∧ r.gdiag = none ∧
        ∃ region, r.sout = some region ∧ s.sin = [true, true, true, true] ++ region ++ [false, false, false, false]) ∧
      (i = .decodeFrame → r.rdata = none ∧ r.rdiag = none ∧ ∃ out ds, r.sout = some out ∧ r.gdiag = some ds ∧
        out.length = 4 * ds.length ∧ s.sin.length = 8 + s.params.width.bits * ds.length))

/-- R161: the codes of `status`, that 5, 6 and 7 are never produced, which operation raises which error, and that an error
comes with nothing recorded. -/
def Obligations.StatusCodesAndWhoRaisesThem : Prop :=
  Status.code .ok = 0#3 ∧ Status.code (.error .syncError) = 1#3 ∧ Status.code (.error .invalidPayloadLength) = 2#3 ∧
  Status.code (.error .malformedGroupError) = 3#3 ∧ Status.code (.error .illegalOperation) = 4#3 ∧
  (∀ st : Status, st.code.toNat < 5) ∧
  ∀ (s t : State) (cmd : CmdWord) (sin : Bits) (rest : List HostMove) (r : Result),
    s.moves = .issue cmd sin :: rest → step s = .next t → t.result = some r →
    (r.status ≠ .ok → r.rdata = none ∧ r.rdiag = none ∧ r.sout = none ∧ r.gdiag = none) ∧
    (r.status = .error .syncError → decode cmd = .ok .strip ∨ decode cmd = .ok .decodeFrame) ∧
    (r.status = .error .invalidPayloadLength → decode cmd = .ok .encodeFrame) ∧
    (r.status = .error .malformedGroupError → decode cmd = .ok .decodeFrame) ∧
    (r.status = .error .illegalOperation ↔ illegalCommand cmd sin = true)

/-- R167: when several error conditions hold, IllegalOperation is reported before SyncError and SyncError before
MalformedGroupError; InvalidPayloadLength competes with no other after IllegalOperation. -/
def Obligations.ErrorsAreReportedByPriority : Prop :=
  ∀ (s : State) (cmd : CmdWord) (sin : Bits) (rest : List HostMove), s.moves = .issue cmd sin :: rest →
    let ends := fun e => step s = .next
      { params := s.params, cmd := cmd, sin := sin, moves := rest
        result := some { status := .error e, rdata := none, rdiag := none, sout := none, gdiag := none } }
    (illegalCommand cmd sin = true → ends .illegalOperation) ∧
    (cmd = 0x0003#16 → ¬ hasMarkers sin → ends .syncError) ∧
    (cmd = 0x0005#16 → fitsFrame s.params sin.length → ¬ hasMarkers sin → ends .syncError) ∧
    (cmd = 0x0005#16 → fitsFrame s.params sin.length → hasMarkers sin →
      (sin.length - 8) % s.params.width.bits ≠ 0 → ends .malformedGroupError) ∧
    (cmd = 0x0004#16 → fitsPayload s.params sin.length → (sin.length = 0 ∨ sin.length % 4 ≠ 0) →
      ends .invalidPayloadLength)

/-- R166, R112: the content of a nibble, a word, a region or a group is never an error. -/
def Obligations.ContentIsNeverAnError : Prop :=
  (∀ (n : Nibble) (s : State), s.sin = [] → ∃ c, answersEnc n s c) ∧
  (∀ (b : CodeWord) (s : State), s.sin = [] → ∃ n d, answersDec b s n d) ∧
  (∀ s : State, ∃ out, answersStream .wrap s out) ∧
  (∀ s : State, hasMarkers s.sin → (s.sin.length - 8) % s.params.width.bits = 0 →
    fitsFrame s.params s.sin.length → ∃ out ds, answersFrame s out ds)

-- ENC (40_encoder.md)

/-- R80, R66: ENC answers the code word whose bits are the nibble, the three parities and the overall parity, which is
even. -/
def Obligations.EncAnswersTheCodeWord : Prop :=
  ∀ (n : Nibble) (s : State), s.sin = [] → ∃ c : CodeWord, answersEnc n s c ∧
    c.getLsbD 0 = n.getLsbD 0 ∧ c.getLsbD 1 = n.getLsbD 1 ∧ c.getLsbD 2 = n.getLsbD 2 ∧ c.getLsbD 3 = n.getLsbD 3 ∧
    c.getLsbD 4 = (n.getLsbD 1 ^^ n.getLsbD 2 ^^ n.getLsbD 3) ∧
    c.getLsbD 5 = (n.getLsbD 0 ^^ n.getLsbD 2 ^^ n.getLsbD 3) ∧
    c.getLsbD 6 = (n.getLsbD 0 ^^ n.getLsbD 1 ^^ n.getLsbD 3) ∧
    c.getLsbD 7 = parityOfLowSeven c ∧ weight c % 2 = 0

/-- R81: the command words of ENC, the answer, the one error, the weights of the code words, and the worked example. -/
def Obligations.EncCommandAndCornerCases : Prop :=
  (∀ (s : State) (cmd : CmdWord) (rest : List HostMove), s.moves = .issue cmd [] :: rest →
    cmd.extractLsb' 0 8 = 0#8 → cmd.extractLsb' 12 4 = 0#4 →
    step s = .next { params := s.params, cmd := cmd, sin := [], moves := rest
                     result := some { status := .ok, rdata := some (hammingEncode (cmd.extractLsb' 8 4)), rdiag := none,
                                      sout := none, gdiag := none } }) ∧
  (∀ (n : Nibble) (s : State), s.sin ≠ [] → answersError (.enc n) s .illegalOperation) ∧
  hammingEncode 0#4 = 0x00#8 ∧ hammingEncode 15#4 = 0xFF#8 ∧ hammingEncode 5#4 = 0x55#8 ∧
  (∀ n : Nibble, n ≠ 0#4 → n ≠ 15#4 → weight (hammingEncode n) = 4) ∧
  (∀ n : Nibble, (hammingEncode n).getLsbD 7 = true ↔ n.toNat ∈ [1, 2, 4, 7, 9, 10, 12, 15])

/-- R82: on a code word the three checks are 0 and the overall parity bit matches; each check is one parity bit with the
data bits it covers. -/
def Obligations.CodeWordsPassEveryCheck : Prop :=
  (∀ n : Nibble, check0 (hammingEncode n) = false ∧ check1 (hammingEncode n) = false ∧
    check2 (hammingEncode n) = false ∧ (hammingEncode n).getLsbD 7 = parityOfLowSeven (hammingEncode n)) ∧
  (∀ b : CodeWord,
    check0 b = (b.getLsbD 4 ^^ (b.getLsbD 1 ^^ b.getLsbD 2 ^^ b.getLsbD 3)) ∧
    check1 b = (b.getLsbD 5 ^^ (b.getLsbD 0 ^^ b.getLsbD 2 ^^ b.getLsbD 3)) ∧
    check2 b = (b.getLsbD 6 ^^ (b.getLsbD 0 ^^ b.getLsbD 1 ^^ b.getLsbD 3)))

/-- R83: what ENC answers is injective in the nibble and carries it in its low bits, has distance at least 4 and sometimes
exactly 4, is linear, and complements with the nibble. -/
def Obligations.CodeIsLinearWithDistanceFour : Prop :=
  ∀ (s : State), s.sin = [] → ∃ code : Nibble → CodeWord, (∀ n, answersEnc n s (code n)) ∧
    (∀ n m, code n = code m → n = m) ∧ (∀ n, (code n).extractLsb' 0 4 = n) ∧
    (∀ n m, n ≠ m → 4 ≤ weight (code n ^^^ code m)) ∧ (∃ n m, n ≠ m ∧ weight (code n ^^^ code m) = 4) ∧
    (∀ n m, code (n ^^^ m) = code n ^^^ code m) ∧ (∀ n, code (15#4 - n) = code n ^^^ 0xFF#8)

-- DEC (41_corrector.md)

/-- R100, R101: the syndrome DEC answers is the three checks over bits {1,2,3,4}, {0,2,3,5} and {0,1,3,6}. -/
def Obligations.DecAnswersTheSyndrome : Prop :=
  ∀ (b : CodeWord) (s : State), s.sin = [] → ∃ n d, answersDec b s n d ∧
    d.syndrome.getLsbD 2 = (b.getLsbD 1 ^^ b.getLsbD 2 ^^ b.getLsbD 3 ^^ b.getLsbD 4) ∧
    d.syndrome.getLsbD 1 = (b.getLsbD 0 ^^ b.getLsbD 2 ^^ b.getLsbD 3 ^^ b.getLsbD 5) ∧
    d.syndrome.getLsbD 0 = (b.getLsbD 0 ^^ b.getLsbD 1 ^^ b.getLsbD 3 ^^ b.getLsbD 6)

/-- R106, R108, R109: `error` is 1 exactly when the syndrome is nonzero, that is when a bit was flipped; `count` is 1 for
a flip plus 1 when the parity of bits 0 to 6 of the word after the flip is not its bit 7; the nibble is the word's low bits;
under COLUMN bit 7 is the received one. -/
def Obligations.DecAnswersErrorAndCount : Prop :=
  ∀ (b : CodeWord) (s : State), s.sin = [] → ∃ n d, answersDec b s n d ∧
    (d.error = true ↔ d.syndrome ≠ 0#3) ∧ (d.error = true ↔ d.word ≠ b) ∧
    d.count.toNat = (if d.error then 1 else 0) + (if parityOfLowSeven d.word ≠ d.word.getLsbD 7 then 1 else 0) ∧
    d.count.toNat ≤ 2 ∧ n = d.word.extractLsb' 0 4 ∧
    (s.params.flipMap = .column → d.word.getLsbD 7 = b.getLsbD 7)

/-- R102: the syndrome is linear and 0 on code words, so it is the exclusive-or of the columns of the error pattern. -/
def Obligations.SyndromeIsLinear : Prop :=
  (∀ x y : CodeWord, syndrome (x ^^^ y) = syndrome x ^^^ syndrome y) ∧
  (∀ n : Nibble, syndrome (hammingEncode n) = 0#3) ∧
  (∀ (n : Nibble) (e : CodeWord), syndrome (hammingEncode n ^^^ e) =
    (((List.range 8).filter fun k => e.getLsbD k).map fun k => syndrome (1#8 <<< k)).foldr (· ^^^ ·) 0#3)

/-- R103: the columns of the eight bit positions, as DEC answers them for the words with one bit set; those of bits 0 to
6 are the seven nonzero values, each once. -/
def Obligations.ColumnsOfTheBitPositions : Prop :=
  (∀ s : State, s.sin = [] → ∀ p ∈ [(0, 3), (1, 5), (2, 6), (3, 7), (4, 4), (5, 2), (6, 1), (7, 0)],
    ∃ n d, answersDec (1#8 <<< p.1) s n d ∧ d.syndrome = BitVec.ofNat 3 p.2) ∧
  (∀ v : Syndrome, v ≠ 0#3 → ∃! k : Fin 7, syndrome (1#8 <<< k.val) = v)

/-- R104: under COLUMN a nonzero syndrome flips the one bit in 0..6 that has it as its column, by the rule's table; bit 7 is
never flipped; and every single error in bits 0 to 6 of a code word is corrected, with error 1 and count 1. -/
def Obligations.ColumnMapFlipsTheNamedBit : Prop :=
  ∀ s : State, s.sin = [] → s.params.flipMap = .column →
    (∀ b : CodeWord, ∃ n d, answersDec b s n d ∧ d.word.getLsbD 7 = b.getLsbD 7 ∧
      (d.syndrome ≠ 0#3 → ∃ k, k < 7 ∧ syndrome (1#8 <<< k) = d.syndrome ∧ d.word = b ^^^ (1#8 <<< k) ∧
        (d.syndrome.toNat, k) ∈ [(1, 6), (2, 5), (3, 0), (4, 4), (5, 1), (6, 2), (7, 3)])) ∧
    (∀ (v : Syndrome) (j k : Nat), j < 7 → k < 7 → syndrome (1#8 <<< j) = v → syndrome (1#8 <<< k) = v → j = k) ∧
    (∀ (n : Nibble) (k : Nat), k < 7 → ∃ d, answersDec (hammingEncode n ^^^ (1#8 <<< k)) s n d ∧
      d.error = true ∧ d.count = 1#2 ∧ d.word = hammingEncode n)

/-- R105: under SHIFT a nonzero syndrome `v` flips bit number `v`, so syndrome 7 flips bit 7, and a single error in bits 0
to 6 is corrected only at bit 4. -/
def Obligations.ShiftMapFlipsTheNumberedBit : Prop :=
  ∀ s : State, s.sin = [] → s.params.flipMap = .shift →
    (∀ b : CodeWord, ∃ n d, answersDec b s n d ∧
      (d.syndrome ≠ 0#3 → d.word = b ^^^ (1#8 <<< d.syndrome.toNat)) ∧
      (d.syndrome = 7#3 → d.word = b ^^^ 0x80#8)) ∧
    (∀ (n : Nibble) (k : Nat), k < 7 → ∃ n' d, answersDec (hammingEncode n ^^^ (1#8 <<< k)) s n' d ∧
      (d.word = hammingEncode n ↔ k = 4) ∧ (n' = n ↔ k = 4))

/-- R110: what DEC answers under COLUMN for every code word with up to three wrong bits: none, one and the one with bit 7
keep the nibble; two in 0..6 and three always lose it; two always give count 2. -/
def Obligations.SingleErrorsCorrectedDoubleDetected : Prop :=
  ∀ (n : Nibble) (e : CodeWord) (s : State), s.sin = [] → s.params.flipMap = .column →
    ∃ n' d, answersDec (hammingEncode n ^^^ e) s n' d ∧
      (e = 0#8 → n' = n ∧ d.error = false ∧ d.count = 0#2) ∧
      (weight e = 1 → e ≠ 0x80#8 → n' = n ∧ d.error = true ∧ d.count = 1#2) ∧
      (e = 0x80#8 → n' = n ∧ d.error = false ∧ d.count = 1#2) ∧
      (weight e = 2 → e.getLsbD 7 = false → n' ≠ n ∧ d.error = true ∧ d.count = 2#2) ∧
      (weight e = 2 → e.getLsbD 7 = true → n' = n ∧ d.error = true ∧ d.count = 2#2) ∧
      (weight e = 3 → n' ≠ n ∧ d.count = 1#2) ∧
      (∃ e1 : CodeWord, weight e1 = 3 ∧ syndrome (hammingEncode n ^^^ e1) = 0#3) ∧
      (∃ e1 : CodeWord, weight e1 = 3 ∧ syndrome (hammingEncode n ^^^ e1) ≠ 0#3)

/-- R111: what DEC answers under SHIFT for every code word with one wrong bit, with none, and with two in 0..6. -/
def Obligations.ShiftMapOutcomes : Prop :=
  ∀ (n : Nibble) (s : State), s.sin = [] → s.params.flipMap = .shift →
    (∀ p ∈ [(0, 3, 9), (1, 5, 2), (2, 6, 4), (3, 7, 8), (4, 4, 0), (5, 2, 4), (6, 1, 2)],
      ∃ n' d, answersDec (hammingEncode n ^^^ (1#8 <<< p.1)) s n' d ∧
        d.word = (hammingEncode n ^^^ (1#8 <<< p.1)) ^^^ (1#8 <<< p.2.1) ∧ n' ^^^ n = BitVec.ofNat 4 p.2.2 ∧
        d.error = true ∧ d.count = 1#2) ∧
    (∃ d, answersDec (hammingEncode n ^^^ 0x80#8) s n d ∧ d.word = hammingEncode n ^^^ 0x80#8 ∧
      d.error = false ∧ d.count = 1#2) ∧
    (∃ d, answersDec (hammingEncode n) s n d) ∧
    (∀ e : CodeWord, weight e = 2 → e.getLsbD 7 = false →
      ∃ n' d, answersDec (hammingEncode n ^^^ e) s n' d ∧ d.count = 2#2)

/-- R107: the command words of DEC, its one error, the function `Decode` by its pseudocode, its corner cases and the worked
example. -/
def Obligations.DecCommandAndDecodeFunction : Prop :=
  (∀ (s : State) (b : CodeWord) (rest : List HostMove), s.moves = .issue (b ++ 0x01#8) [] :: rest →
    let x := hammingDecode s.params.flipMap b
    step s = .next { params := s.params, cmd := b ++ 0x01#8, sin := [], moves := rest
                     result := some { status := .ok, rdata := some (0#4 ++ x.nibble),
                                      rdiag := some (x.diag.word ++ x.diag.syndrome ++ x.diag.count ++
                                        BitVec.ofBool x.diag.error),
                                      sout := none, gdiag := none } }) ∧
  (∀ (b : CodeWord) (s : State), s.sin ≠ [] → answersError (.dec b) s .illegalOperation) ∧
  (∀ (m : FlipMap) (b : CodeWord),
    let x := hammingDecode m b
    x.diag.syndrome = syndrome b ∧ (syndrome b = 0#3 → x.diag.error = false ∧ x.diag.word = b) ∧
    (syndrome b ≠ 0#3 → x.diag.error = true ∧ x.diag.word = b ^^^ (1#8 <<< flipPosition m (syndrome b))) ∧
    x.diag.count.toNat = (if x.diag.error then 1 else 0) +
      (if parityOfLowSeven x.diag.word ≠ x.diag.word.getLsbD 7 then 1 else 0) ∧
    x.nibble = x.diag.word.extractLsb' 0 4) ∧
  (∀ (m : FlipMap) (n : Nibble), (hammingDecode m (hammingEncode n)).diag.syndrome = 0#3 ∧
    (hammingDecode m (hammingEncode n)).diag.count = 0#2) ∧
  (∀ (m : FlipMap) (n : Nibble),
    let x := hammingDecode m (hammingEncode n ^^^ 0x80#8)
    x.nibble = n ∧ x.diag.syndrome = 0#3 ∧ x.diag.error = false ∧ x.diag.count = 1#2) ∧
  (∀ (m : FlipMap) (n : Nibble) (e : CodeWord), weight e = 2 → e.getLsbD 7 = false →
    let x := hammingDecode m (hammingEncode n ^^^ e)
    x.diag.count = 2#2 ∧ (m = .column → x.nibble ≠ n)) ∧
  (∀ b : CodeWord, syndrome b = 7#3 → (hammingDecode .shift b).diag.word = b ^^^ 0x80#8) ∧
  hammingDecode .column 0x57#8 = { nibble := 5#4, diag := { error := true, count := 1#2, syndrome := 5#3, word := 0x55#8 } }

-- The framer (42_framer.md)

/-- R14: serialising and deserialising, bit by bit, and that one undoes the other up to the width sent. -/
def Obligations.SerialisationIsMostSignificantFirst : Prop :=
  (∀ (w k : Nat) (v : BitVec w), (ser k v).length = k ∧
    (∀ i, i < k → (ser k v)[i]? = some (v.getLsbD (k - 1 - i))) ∧ (w ≤ k → deser (ser k v) = v.toNat)) ∧
  (∀ S : Bits, deser S = ((List.range S.length).map fun i => ((S[i]?.getD false).toNat * 2 ^ (S.length - 1 - i))).sum) ∧
  (∀ v : CodeWord, deser (ser 7 v) = (v.extractLsb' 0 7).toNat)

/-- R68, R69: nibble `i` of a payload has the bits `P[4i]` to `P[4i+3]`, most significant first, and writing the nibbles of a
payload back gives the payload; a group of `W` bits sends `c[W-1]` first, and a received group gives the word of its value, whose
bit 7 is 0 where `W = 7`. -/
def Obligations.PayloadAndGroupFormats : Prop :=
  (∀ (P : Bits) (i : Nat), 4 * i + 4 ≤ P.length → ∃ n, (payloadNibbles P)[i]? = some n ∧
    P[4 * i]? = some (n.getLsbD 3) ∧ P[4 * i + 1]? = some (n.getLsbD 2) ∧ P[4 * i + 2]? = some (n.getLsbD 1) ∧
    P[4 * i + 3]? = some (n.getLsbD 0)) ∧
  (∀ P : Bits, P.length % 4 = 0 → serNibbles (payloadNibbles P) = P) ∧
  (∀ c : CodeWord,
    ser 8 c = [c.getLsbD 7, c.getLsbD 6, c.getLsbD 5, c.getLsbD 4, c.getLsbD 3, c.getLsbD 2, c.getLsbD 1, c.getLsbD 0] ∧
    ser 7 c = [c.getLsbD 6, c.getLsbD 5, c.getLsbD 4, c.getLsbD 3, c.getLsbD 2, c.getLsbD 1, c.getLsbD 0] ∧
    regionWords 8 (ser 8 c) = [c] ∧ regionWords 7 (ser 7 c) = [c &&& 0x7F#8]) ∧
  (∀ g : Bits, (g.length = 8 → ∃ b : CodeWord, regionWords 8 g = [b] ∧ b.toNat = deser g) ∧
    (g.length = 7 → ∃ b : CodeWord, regionWords 7 g = [b] ∧ b.toNat = deser g ∧ b.getLsbD 7 = false))

/-- R131, R130: WRAP's command word, and that it answers `1111`, the sequence and `0000` for every sequence. -/
def Obligations.WrapAddsTheMarkers : Prop :=
  decode 0x0002#16 = .ok .wrap ∧
  ∀ s : State, answersStream .wrap s ([true, true, true, true] ++ s.sin ++ [false, false, false, false])

/-- R132: STRIP's command word, that it answers what stands between the markers, and SyncError where one is missing. -/
def Obligations.StripChecksAndRemovesTheMarkers : Prop :=
  decode 0x0003#16 = .ok .strip ∧
  ∀ s : State,
    (∀ region : Bits, s.sin = [true, true, true, true] ++ region ++ [false, false, false, false] →
      answersStream .strip s region) ∧
    (s.sin.length < 8 ∨ s.sin.take 4 ≠ [true, true, true, true] ∨
      s.sin.drop (s.sin.length - 4) ≠ [false, false, false, false] → answersError .strip s .syncError)

/-- R133: the plain test "starts with 1111 and ends with 0000" gives STRIP's verdict, and no sequence shorter than 8 passes
it. -/
def Obligations.PlainMarkerTestGivesTheSameVerdict : Prop :=
  (∀ s : State, (∃ out, answersStream .strip s out) ↔
    [true, true, true, true] <+: s.sin ∧ [false, false, false, false] <:+ s.sin) ∧
  (∀ F : Bits, F.length < 8 → ¬ ([true, true, true, true] <+: F ∧ [false, false, false, false] <:+ F))

/-- R162, R144, R140: STRIP and DECODE_FRAME end with SyncError exactly when the frame does not start with `1111` or does not
end with `0000`, whatever the length of the region, and so for every frame shorter than 8 bits. -/
def Obligations.SyncErrorExactlyWithoutMarkers : Prop :=
  ∀ s : State,
    (answersError .strip s .syncError ↔
      ¬ ([true, true, true, true] <+: s.sin ∧ [false, false, false, false] <:+ s.sin)) ∧
    (fitsFrame s.params s.sin.length → (answersError .decodeFrame s .syncError ↔
      ¬ ([true, true, true, true] <+: s.sin ∧ [false, false, false, false] <:+ s.sin))) ∧
    (s.sin.length < 8 → answersError .strip s .syncError ∧ answersError .decodeFrame s .syncError)

/-- R163: ENCODE_FRAME ends with InvalidPayloadLength exactly when the payload length is 0 or not a multiple of 4. -/
def Obligations.InvalidPayloadLengthExactly : Prop :=
  ∀ s : State, fitsPayload s.params s.sin.length →
    (answersError .encodeFrame s .invalidPayloadLength ↔ s.sin.length = 0 ∨ s.sin.length % 4 ≠ 0)

/-- R164, R141: DECODE_FRAME ends with MalformedGroupError exactly when the markers are right and the region is not a whole
number of groups. -/
def Obligations.MalformedGroupErrorExactly : Prop :=
  ∀ s : State, fitsFrame s.params s.sin.length →
    (answersError .decodeFrame s .malformedGroupError ↔
      ∃ region : Bits, s.sin = [true, true, true, true] ++ region ++ [false, false, false, false] ∧
        region.length % s.params.width.bits ≠ 0)

/-- R135, R134: ENCODE_FRAME's command word, and that it answers the markers around `ser_W(Encode(n_i))` for each nibble of
the payload in order, `8 + W*N` bits in all. -/
def Obligations.EncodeFrameAnswersTheFrame : Prop :=
  decode 0x0004#16 = .ok .encodeFrame ∧
  ∀ s : State, fitsPayload s.params s.sin.length →
    (s.sin.length = 0 ∨ s.sin.length % 4 ≠ 0 → answersError .encodeFrame s .invalidPayloadLength) ∧
    (s.sin.length ≠ 0 → s.sin.length % 4 = 0 → ∃ out,
      answersStream .encodeFrame s ([true, true, true, true] ++ out ++ [false, false, false, false]) ∧
      out = (List.range (s.sin.length / 4)).flatMap
        (fun i => ser s.params.width.bits (hammingEncode (payloadNibble s.sin i))) ∧
      out.length = s.params.width.bits * (s.sin.length / 4))

/-- R136: with `W = 7` each group is `[c[6], ..., c[0]]`, without bit 7, and the code words that lose a 1 are those of the
nibbles 1, 2, 4, 7, 9, 10, 12 and 15. -/
def Obligations.SevenBitGroupsDropTheParityBit : Prop :=
  (∀ (s : State) (ns : List Nibble), s.params.width = .seven → ns ≠ [] → s.sin = ns.flatMap (ser 4) →
    fitsPayload s.params s.sin.length →
    answersStream .encodeFrame s ([true, true, true, true] ++ ns.flatMap (fun n =>
      let c := hammingEncode n
      [c.getLsbD 6, c.getLsbD 5, c.getLsbD 4, c.getLsbD 3, c.getLsbD 2, c.getLsbD 1, c.getLsbD 0]) ++
      [false, false, false, false])) ∧
  (∀ n : Nibble, (hammingEncode n).getLsbD 7 = true ↔ n.toNat ∈ [1, 2, 4, 7, 9, 10, 12, 15])

/-- R137, R138: DECODE_FRAME's command word, and that for a region of `G` whole groups it answers the nibble of each group in
order and one record per group, as `Decode` gives them. -/
def Obligations.DecodeFrameAnswersEveryGroup : Prop :=
  decode 0x0005#16 = .ok .decodeFrame ∧
  ∀ (s : State) (region : Bits), s.sin = [true, true, true, true] ++ region ++ [false, false, false, false] →
    fitsFrame s.params s.sin.length →
    (region.length % s.params.width.bits ≠ 0 → answersError .decodeFrame s .malformedGroupError) ∧
    (region.length % s.params.width.bits = 0 →
      let groups := List.range (region.length / s.params.width.bits)
      let decoded := fun i => hammingDecode s.params.flipMap (regionWord s.params.width.bits region i)
      answersFrame s (groups.flatMap fun i => ser 4 (decoded i).nibble) (groups.map fun i => (decoded i).diag) ∧
      (s.params.flipMap = .column → ∀ (i : Nat) (n : Nibble) (k : Nat), k < 8 →
        regionWord s.params.width.bits region i = hammingEncode n ^^^ (1#8 <<< k) → (decoded i).nibble = n))

/-- R139: the frame `11110000` decodes to the empty payload with no record, and ENCODE_FRAME never answers that frame. -/
def Obligations.EmptyFrameDecodesAndIsNeverEncoded : Prop :=
  (∀ s : State, s.sin = [true, true, true, true, false, false, false, false] → answersFrame s [] []) ∧
  (∀ (s : State) (out : Bits), answersStream .encodeFrame s out →
    out ≠ [true, true, true, true, false, false, false, false])

/-- R44: the number of bits each stream operation takes and gives. -/
def Obligations.StreamOperationsMoveTheirWidths : Prop :=
  ∀ (s : State) (out : Bits),
    (answersStream .wrap s out → out.length = s.sin.length + 8) ∧
    (answersStream .strip s out → 8 ≤ s.sin.length ∧ out.length + 8 = s.sin.length) ∧
    (answersStream .encodeFrame s out → ∃ N, s.sin.length = 4 * N ∧ out.length = 8 + s.params.width.bits * N) ∧
    (∀ ds, answersFrame s out ds → ∃ N, s.sin.length = 8 + s.params.width.bits * N ∧ out.length = 4 * N)

/-- R143: STRIP after WRAP gives the sequence back, and STRIP after ENCODE_FRAME gives the groups of the payload's nibbles
with no extra bit. -/
def Obligations.StripUndoesWrapAndEncodeFrame : Prop :=
  (∀ (s t : State) (out : Bits), answersStream .wrap s out → t.sin = out → answersStream .strip t s.sin) ∧
  (∀ (s t : State) (ns : List Nibble) (out : Bits), s.sin = ns.flatMap (ser 4) →
    answersStream .encodeFrame s out → t.sin = out →
    answersStream .strip t (ns.flatMap fun n => ser s.params.width.bits (hammingEncode n))) ∧
  (∀ (s : State) (ns : List Nibble), ns ≠ [] → s.sin = ns.flatMap (ser 4) → fitsPayload s.params s.sin.length →
    ∃ out, answersStream .encodeFrame s out)

/-- R142: every payload that ENCODE_FRAME takes comes back from DECODE_FRAME of the same build, for both widths and both flip
maps, with the records the rule gives. -/
def Obligations.DecodeFrameUndoesEncodeFrame : Prop :=
  ∀ (s t : State), 0 < s.sin.length → s.sin.length % 4 = 0 → fitsPayload s.params s.sin.length → t.params = s.params →
    ∃ out, answersStream .encodeFrame s out ∧
      (t.sin = out → answersFrame t s.sin ((List.range (s.sin.length / 4)).map fun i =>
        let c := hammingEncode (payloadNibble s.sin i)
        match s.params.width with
        | .eight => { error := false, count := 0#2, syndrome := 0#3, word := c }
        | .seven => { error := false, count := if c.getLsbD 7 then 1#2 else 0#2, syndrome := 0#3, word := c &&& 0x7F#8 }))

/-- R145: with `W = 7` and COLUMN, what DECODE_FRAME answers for a group, anywhere in a frame, that carries a code word with
wrong bits among 0 to 6. -/
def Obligations.SevenBitGroupOutcomes : Prop :=
  ∀ (s : State) (n : Nibble) (e : CodeWord) (before after : Bits) (i : Nat),
    s.params.width = .seven → s.params.flipMap = .column → e.getLsbD 7 = false →
    before.length = 7 * i → after.length % 7 = 0 → fitsFrame s.params s.sin.length →
    s.sin = [true, true, true, true] ++ (before ++ ser 7 (hammingEncode n ^^^ e) ++ after) ++ [false, false, false, false] →
    ∃ out ds n' d, answersFrame s out ds ∧ ds[i]? = some d ∧ (out.drop (4 * i)).take 4 = ser 4 n' ∧
      (weight e = 0 → n' = n ∧ d.error = false ∧ d.count.toNat = ((hammingEncode n).getLsbD 7).toNat) ∧
      (weight e = 1 → n' = n ∧ d.error = true ∧ d.count.toNat = 1 + ((hammingEncode n).getLsbD 7).toNat) ∧
      (weight e = 2 → n' ≠ n ∧ d.error = true ∧ d.count.toNat + ((hammingEncode n).getLsbD 7).toNat = 2)

/-- 42_framer.md section 4 with 41_corrector.md section 4: with `W = 8` and COLUMN, a frame whose groups each carry up to two
wrong bits decodes with count 2 in exactly the groups that have two, and to the payload sent when none has. -/
def Obligations.FramesAreSingleErrorCorrecting : Prop :=
  ∀ (s : State) (groups : List (Nibble × CodeWord)),
    s.params.width = .eight → s.params.flipMap = .column → (∀ g ∈ groups, weight g.2 ≤ 2) →
    s.sin = [true, true, true, true] ++ groups.flatMap (fun g => ser 8 (hammingEncode g.1 ^^^ g.2)) ++
      [false, false, false, false] →
    fitsFrame s.params s.sin.length →
    ∃ out ds, answersFrame s out ds ∧ ds.length = groups.length ∧
      (∀ (i : Nat) (g : Nibble × CodeWord) (d : Diag), groups[i]? = some g → ds[i]? = some d → (d.count = 2#2 ↔ weight g.2 = 2)) ∧
      ((∀ g ∈ groups, weight g.2 ≤ 1) → out = groups.flatMap fun g => ser 4 g.1)

-- The invariant

/-- The reset state is a good state. -/
def Obligations.ResetIsGood : Prop :=
  State.reset.Inv

/-- R28, R45, R108, R109, R138, R168: from every good state, reached or not, a step leads to a good state: the parameters stay
legal, and the result ports hold no result, an error with no data, or the well-formed outputs of one operation. -/
def Obligations.StepsKeepStatesGood : Prop :=
  ∀ s t : State, s.Inv → step s = .next t → t.Inv
end

