-- ==== Sys2Proof/Laws/Operands.lean ====
section
/-! SUPPORT. Serialising, the markers, and the split into groups. -/

namespace Sys2Proof.Machine

@[simp] theorem ser_zero {w : Nat} (v : BitVec w) : ser 0 v = [] := rfl

theorem ser_succ {w : Nat} (k : Nat) (v : BitVec w) : ser (k + 1) v = v.getLsbD k :: ser k v := rfl

@[simp] theorem ser_length {w : Nat} (k : Nat) (v : BitVec w) : (ser k v).length = k := by
  induction k with
  | zero => rfl
  | succ k ih => simp [ser_succ, ih]

theorem ser_getElem? {w : Nat} (v : BitVec w) {k i : Nat} (h : i < k) : (ser k v)[i]? = some (v.getLsbD (k - 1 - i)) := by
  induction k generalizing i with
  | zero => omega
  | succ k ih =>
    cases i with
    | zero => simp [ser_succ]
    | succ i => rw [ser_succ, List.getElem?_cons_succ, ih (by omega)]; congr 2; omega

@[simp] theorem deser_nil : deser [] = 0 := rfl

@[simp] theorem deser_cons (b : Bit) (rest : Bits) : deser (b :: rest) = b.toNat * 2 ^ rest.length + deser rest := rfl

theorem deser_lt (bits : Bits) : deser bits < 2 ^ bits.length := by
  induction bits with
  | nil => simp
  | cons b rest ih =>
    have hb : b.toNat * 2 ^ rest.length ≤ 2 ^ rest.length := by cases b <;> simp
    rw [deser_cons, List.length_cons, Nat.pow_succ]
    omega

/-- Sending the low `k` bits of a value and reading them back gives the value modulo `2^k`. -/
theorem deser_ser_eq_mod {w : Nat} (k : Nat) (v : BitVec w) : deser (ser k v) = v.toNat % 2 ^ k := by
  induction k with
  | zero => simp [Nat.mod_one]
  | succ k ih =>
    have hb : (v.getLsbD k).toNat = v.toNat / 2 ^ k % 2 := by
      rw [BitVec.getLsbD, Nat.toNat_testBit]
    rw [ser_succ, deser_cons, ser_length, ih, hb, Nat.pow_succ, Nat.mod_mul]
    ring

@[simp] theorem chunks_zero (size : Nat) (bits : Bits) : chunks size 0 bits = [] := rfl

@[simp] theorem chunks_succ (size count : Nat) (bits : Bits) :
    chunks size (count + 1) bits = bits.take size :: chunks size count (bits.drop size) := rfl

@[simp] theorem chunks_length (size count : Nat) (bits : Bits) : (chunks size count bits).length = count := by
  induction count generalizing bits with
  | zero => rfl
  | succ count ih => simp [ih]

/-- Group `i` starts at `size * i`. -/
theorem chunks_eq_map (size count : Nat) (bits : Bits) :
    chunks size count bits = (List.range count).map fun i => (bits.drop (size * i)).take size := by
  induction count generalizing bits with
  | zero => rfl
  | succ count ih =>
    rw [chunks_succ, ih, List.range_succ_eq_map, List.map_cons, List.map_map]
    simp [Function.comp_def, Nat.mul_succ, Nat.add_comm]

/-- Whole groups put one after the other are split where they were joined. -/
theorem chunks_flatten {size : Nat} (groups : List Bits) (h : ∀ g ∈ groups, g.length = size) :
    chunks size groups.length groups.flatten = groups := by
  induction groups with
  | nil => rfl
  | cons g rest ih =>
    have hg : g.length = size := h g (by simp)
    simp [← hg, hg ▸ ih fun x hx => h x (by simp [hx])]

theorem flatten_length_of_uniform {size : Nat} (groups : List Bits) (h : ∀ g ∈ groups, g.length = size) :
    groups.flatten.length = size * groups.length := by
  induction groups with
  | nil => simp
  | cons g rest ih =>
    rw [List.flatten_cons, List.length_append, h g (by simp), ih fun x hx => h x (by simp [hx]), List.length_cons]
    ring

@[simp] theorem frameOf_length (region : Bits) : (frameOf region).length = region.length + 8 := by
  simp [frameOf, header, trailer]

/-- A frame built around a region carries both markers and gives that region back. -/
@[simp] theorem regionOf_frameOf (region : Bits) : regionOf (frameOf region) = some region := by
  have h4 : (header ++ region).length = region.length + 4 := by simp [header]
  have hd : (frameOf region).drop ((frameOf region).length - 4) = trailer := by
    rw [frameOf_length, frameOf, show region.length + 8 - 4 = (header ++ region).length by omega, List.drop_left]
  have ht : (frameOf region).take 4 = header := by simp [frameOf, header]
  have hm : ((frameOf region).drop 4).take ((frameOf region).length - 8) = region := by
    simp [frameOf, header, trailer]
  rw [regionOf, if_pos ⟨by simp, ht, hd⟩, hm]

/-- A frame gives a region exactly when it is that region between the markers. -/
theorem regionOf_eq_some {frame region : Bits} : regionOf frame = some region ↔ frame = frameOf region := by
  constructor
  · intro h
    unfold regionOf at h
    split at h
    · rename_i hm
      obtain ⟨hl, hh, ht⟩ := hm
      cases h
      have e1 : frame.take 4 ++ frame.drop 4 = frame := List.take_append_drop 4 frame
      have e2 : (frame.drop 4).take (frame.length - 8) ++ (frame.drop 4).drop (frame.length - 8) = frame.drop 4 :=
        List.take_append_drop _ _
      rw [List.drop_drop, show 4 + (frame.length - 8) = frame.length - 4 by omega, ht] at e2
      rw [frameOf, ← hh, List.append_assoc, e2, e1]
    · cases h
  · rintro rfl
    exact regionOf_frameOf region

theorem regionOf_eq_none {frame : Bits} : regionOf frame = none ↔ ∀ region, frame ≠ frameOf region := by
  constructor
  · rintro h region rfl
    simp at h
  · intro h
    cases hr : regionOf frame with
    | none => rfl
    | some region => exact absurd (regionOf_eq_some.mp hr) (h region)

@[simp] theorem payloadNibbles_length (payload : Bits) : (payloadNibbles payload).length = payload.length / 4 := by
  simp [payloadNibbles]

@[simp] theorem regionWords_length (w : Nat) (region : Bits) : (regionWords w region).length = region.length / w := by
  simp [regionWords]

theorem serWords_length (w : Nat) (cs : List CodeWord) : (serWords w cs).length = w * cs.length := by
  simp only [serWords, List.flatMap]
  rw [flatten_length_of_uniform (size := w) _ (by simp)]
  simp

theorem serNibbles_length (ns : List Nibble) : (serNibbles ns).length = 4 * ns.length := by
  simp only [serNibbles, List.flatMap]
  rw [flatten_length_of_uniform (size := 4) _ (by simp)]
  simp

/-- The groups that carry code words, read back, are the words' low `w` bits. -/
theorem regionWords_serWords {w : Nat} (hw : 0 < w) (cs : List CodeWord) :
    regionWords w (serWords w cs) = cs.map fun c => BitVec.ofNat 8 (c.toNat % 2 ^ w) := by
  have hl : (serWords w cs).length / w = (cs.map (ser w)).length := by
    rw [serWords_length, Nat.mul_div_cancel_left _ hw, List.length_map]
  rw [regionWords, hl, serWords, List.flatMap, chunks_flatten _ (by simp), List.map_map]
  simp [Function.comp_def, deser_ser_eq_mod]

/-- The nibbles of a payload written from nibbles are those nibbles. -/
theorem payloadNibbles_serNibbles (ns : List Nibble) : payloadNibbles (serNibbles ns) = ns := by
  have hl : (serNibbles ns).length / 4 = (ns.map (ser 4)).length := by
    rw [serNibbles_length, Nat.mul_div_cancel_left _ (by omega), List.length_map]
  rw [payloadNibbles, hl, serNibbles, List.flatMap, chunks_flatten _ (by simp), List.map_map]
  simp [Function.comp_def, deser_ser_eq_mod, Nat.mod_eq_of_lt (BitVec.isLt _)]

end Sys2Proof.Machine
end

