-- ==== Sys2Proof/Laws/State.lean ====
section
/-! SUPPORT. What each update of the state does to each field. -/

namespace Sys2Proof.Machine

@[simp] theorem give_params (s : State) (r : Result) : (s.give r).params = s.params := rfl
@[simp] theorem give_cmd (s : State) (r : Result) : (s.give r).cmd = s.cmd := rfl
@[simp] theorem give_sin (s : State) (r : Result) : (s.give r).sin = s.sin := rfl
@[simp] theorem give_result (s : State) (r : Result) : (s.give r).result = some r := rfl
@[simp] theorem give_moves (s : State) (r : Result) : (s.give r).moves = s.moves := rfl

@[simp] theorem present_params (s : State) (cmd : CmdWord) (sin : Bits) : (s.present cmd sin).params = s.params := rfl
@[simp] theorem present_cmd (s : State) (cmd : CmdWord) (sin : Bits) : (s.present cmd sin).cmd = cmd := rfl
@[simp] theorem present_sin (s : State) (cmd : CmdWord) (sin : Bits) : (s.present cmd sin).sin = sin := rfl
@[simp] theorem present_result (s : State) (cmd : CmdWord) (sin : Bits) : (s.present cmd sin).result = s.result := rfl
@[simp] theorem present_moves (s : State) (cmd : CmdWord) (sin : Bits) : (s.present cmd sin).moves = s.moves := rfl

@[simp] theorem hostGoesOn_params (s : State) (ms : List HostMove) : (s.hostGoesOn ms).params = s.params := rfl
@[simp] theorem hostGoesOn_cmd (s : State) (ms : List HostMove) : (s.hostGoesOn ms).cmd = s.cmd := rfl
@[simp] theorem hostGoesOn_sin (s : State) (ms : List HostMove) : (s.hostGoesOn ms).sin = s.sin := rfl
@[simp] theorem hostGoesOn_result (s : State) (ms : List HostMove) : (s.hostGoesOn ms).result = s.result := rfl
@[simp] theorem hostGoesOn_moves (s : State) (ms : List HostMove) : (s.hostGoesOn ms).moves = ms := rfl

@[simp] theorem resetBlock_params (s : State) : s.resetBlock.params = s.params := rfl
@[simp] theorem resetBlock_cmd (s : State) : s.resetBlock.cmd = 0#16 := rfl
@[simp] theorem resetBlock_sin (s : State) : s.resetBlock.sin = [] := rfl
@[simp] theorem resetBlock_result (s : State) : s.resetBlock.result = none := rfl
@[simp] theorem resetBlock_moves (s : State) : s.resetBlock.moves = s.moves := rfl

@[simp] theorem afterReset_params (p : Params) (ms : List HostMove) : (State.afterReset p ms).params = p := rfl
@[simp] theorem afterReset_cmd (p : Params) (ms : List HostMove) : (State.afterReset p ms).cmd = 0#16 := rfl
@[simp] theorem afterReset_sin (p : Params) (ms : List HostMove) : (State.afterReset p ms).sin = [] := rfl
@[simp] theorem afterReset_moves (p : Params) (ms : List HostMove) : (State.afterReset p ms).moves = ms := rfl

end Sys2Proof.Machine
end

