-- ==== Sys2Proof/Laws/Ops.lean ====
section
/-! SUPPORT. What the shared operations can do, said once. -/

namespace Sys2Proof.Machine

@[simp] theorem returns_eq (r : Result) (s : State) : returns r s = .next (s.give r) := rfl

@[simp] theorem raise_eq (e : ErrorClass) (s : State) : raise e s = .next (s.give (Result.ofError e)) := rfl

theorem requireNoStream_of_empty {s : State} (h : s.sin = []) (r : Result) :
    requireNoStream s r = .next (s.give r) := by
  simp [requireNoStream, h]

theorem requireNoStream_of_stream {s : State} (h : s.sin ≠ []) (r : Result) :
    requireNoStream s r = .next (s.give (Result.ofError .illegalOperation)) := by
  simp [requireNoStream, h]

/-- `requireNoStream` always completes, with the result or with IllegalOperation. -/
theorem requireNoStream_cases (s : State) (r : Result) :
    (s.sin = [] ∧ requireNoStream s r = .next (s.give r)) ∨
    (s.sin ≠ [] ∧ requireNoStream s r = .next (s.give (Result.ofError .illegalOperation))) := by
  by_cases h : s.sin = []
  · exact .inl ⟨h, requireNoStream_of_empty h r⟩
  · exact .inr ⟨h, requireNoStream_of_stream h r⟩

theorem exceedsMaxNibbles_eq_false (p : Params) (a g len : Nat) :
    exceedsMaxNibbles p a g len = false ↔ ∀ m, p.maxNibbles = some m → len ≤ a + g * m := by
  unfold exceedsMaxNibbles
  split <;> simp_all

theorem withinMaxNibbles_of_fits {s : State} {a g : Nat} (h : exceedsMaxNibbles s.params a g s.sin.length = false)
    (run : Outcome) : withinMaxNibbles s a g run = run := by
  simp [withinMaxNibbles, h]

theorem withinMaxNibbles_of_exceeds {s : State} {a g : Nat} (h : exceedsMaxNibbles s.params a g s.sin.length = true)
    (run : Outcome) : withinMaxNibbles s a g run = .refused .operandExceedsMaxNibbles := by
  simp [withinMaxNibbles, h]

/-- If a bounded operation answers a next state, its operand fits and the operation itself answered it. -/
theorem withinMaxNibbles_eq_next {s t : State} {a g : Nat} {run : Outcome} (h : withinMaxNibbles s a g run = .next t) :
    exceedsMaxNibbles s.params a g s.sin.length = false ∧ run = .next t := by
  unfold withinMaxNibbles at h
  split at h
  · cases h
  · exact ⟨Bool.eq_false_iff.mpr ‹_›, h⟩

end Sys2Proof.Machine
end

