-- ==== Sys2Proof/Laws/Exec.lean ====
section
/-! SUPPORT. What each meaning can answer, said once, and what the channel does with a command. -/

namespace Sys2Proof.Machine

theorem execStrip_of_frame {s : State} {region : Bits} (h : s.sin = frameOf region) :
    execStrip s = .next (s.give (Result.ofStream region)) := by
  simp [execStrip, h]

theorem execStrip_of_noFrame {s : State} (h : ∀ region, s.sin ≠ frameOf region) :
    execStrip s = .next (s.give (Result.ofError .syncError)) := by
  simp [execStrip, regionOf_eq_none.mpr h]

theorem encodeFrameBody_of_badLength {s : State} (h : s.sin.length = 0 ∨ s.sin.length % 4 ≠ 0) :
    encodeFrameBody s = .next (s.give (Result.ofError .invalidPayloadLength)) := by
  simp only [encodeFrameBody, if_pos h, raise_eq]

theorem encodeFrameBody_of_goodLength {s : State} (h0 : s.sin.length ≠ 0) (h4 : s.sin.length % 4 = 0) :
    encodeFrameBody s =
      .next (s.give (Result.ofStream (frameOf (encodeGroups s.params.width s.sin)))) := by
  rw [encodeFrameBody, if_neg (by omega), returns_eq]

theorem decodeFrameBody_of_noFrame {s : State} (h : ∀ region, s.sin ≠ frameOf region) :
    decodeFrameBody s = .next (s.give (Result.ofError .syncError)) := by
  simp [decodeFrameBody, regionOf_eq_none.mpr h]

theorem decodeFrameBody_of_badRegion {s : State} {region : Bits} (h : s.sin = frameOf region)
    (hw : region.length % s.params.width.bits ≠ 0) :
    decodeFrameBody s = .next (s.give (Result.ofError .malformedGroupError)) := by
  simp only [decodeFrameBody, regionOf_eq_some.mpr h, if_pos hw, raise_eq]

theorem decodeFrameBody_of_groups {s : State} {region : Bits} (h : s.sin = frameOf region)
    (hw : region.length % s.params.width.bits = 0) :
    decodeFrameBody s = .next (s.give (Result.ofDecodedFrame
      (serNibbles ((decodeGroups s.params region).map Decoded.nibble)) ((decodeGroups s.params region).map Decoded.diag))) := by
  simp only [decodeFrameBody, regionOf_eq_some.mpr h, if_neg (by omega : ¬ region.length % s.params.width.bits ≠ 0),
    returns_eq]

/-- ENCODE_FRAME refuses, or checks the length, or answers the frame. -/
theorem execEncodeFrame_cases (s : State) :
    (exceedsMaxNibbles s.params 0 4 s.sin.length = true ∧ execEncodeFrame s = .refused .operandExceedsMaxNibbles) ∨
    (exceedsMaxNibbles s.params 0 4 s.sin.length = false ∧
      (((s.sin.length = 0 ∨ s.sin.length % 4 ≠ 0) ∧
          execEncodeFrame s = .next (s.give (Result.ofError .invalidPayloadLength))) ∨
        (s.sin.length ≠ 0 ∧ s.sin.length % 4 = 0 ∧
          execEncodeFrame s = .next (s.give (Result.ofStream (frameOf (encodeGroups s.params.width s.sin))))))) := by
  cases he : exceedsMaxNibbles s.params 0 4 s.sin.length with
  | true => exact .inl ⟨rfl, withinMaxNibbles_of_exceeds he _⟩
  | false =>
    refine .inr ⟨rfl, ?_⟩
    rw [execEncodeFrame, withinMaxNibbles_of_fits he]
    by_cases h : s.sin.length = 0 ∨ s.sin.length % 4 ≠ 0
    · exact .inl ⟨h, encodeFrameBody_of_badLength h⟩
    · exact .inr ⟨by omega, by omega, encodeFrameBody_of_goodLength (by omega) (by omega)⟩

/-- DECODE_FRAME refuses, or misses a marker, or has a bad region, or answers the payload. -/
theorem execDecodeFrame_cases (s : State) :
    (exceedsMaxNibbles s.params 8 s.params.width.bits s.sin.length = true ∧
      execDecodeFrame s = .refused .operandExceedsMaxNibbles) ∨
    (exceedsMaxNibbles s.params 8 s.params.width.bits s.sin.length = false ∧
      (((∀ region, s.sin ≠ frameOf region) ∧ execDecodeFrame s = .next (s.give (Result.ofError .syncError))) ∨
        ∃ region, s.sin = frameOf region ∧
          ((region.length % s.params.width.bits ≠ 0 ∧
              execDecodeFrame s = .next (s.give (Result.ofError .malformedGroupError))) ∨
            (region.length % s.params.width.bits = 0 ∧
              execDecodeFrame s = .next (s.give (Result.ofDecodedFrame
                (serNibbles ((decodeGroups s.params region).map Decoded.nibble))
                ((decodeGroups s.params region).map Decoded.diag))))))) := by
  cases he : exceedsMaxNibbles s.params 8 s.params.width.bits s.sin.length with
  | true => exact .inl ⟨rfl, withinMaxNibbles_of_exceeds he _⟩
  | false =>
    refine .inr ⟨rfl, ?_⟩
    rw [execDecodeFrame, withinMaxNibbles_of_fits he]
    cases hr : regionOf s.sin with
    | none => exact .inl ⟨regionOf_eq_none.mp hr, decodeFrameBody_of_noFrame (regionOf_eq_none.mp hr)⟩
    | some region =>
      have hf := regionOf_eq_some.mp hr
      refine .inr ⟨region, hf, ?_⟩
      by_cases h : region.length % s.params.width.bits = 0
      · exact .inr ⟨h, decodeFrameBody_of_groups hf h⟩
      · exact .inl ⟨h, decodeFrameBody_of_badRegion hf h⟩

/-- Whatever an operation answers, it is the state before with a result on the ports, or the one refusal. -/
theorem exec_gives_or_refuses (i : Instr) (s : State) :
    (∃ r, exec i s = .next (s.give r)) ∨ exec i s = .refused .operandExceedsMaxNibbles := by
  cases i with
  | enc n =>
    obtain ⟨-, h⟩ | ⟨-, h⟩ := requireNoStream_cases s (Result.ofEnc (hammingEncode n)) <;> exact .inl ⟨_, h⟩
  | dec b =>
    obtain ⟨-, h⟩ | ⟨-, h⟩ := requireNoStream_cases s (Result.ofDec (hammingDecode s.params.flipMap b)) <;>
      exact .inl ⟨_, h⟩
  | wrap => exact .inl ⟨_, rfl⟩
  | strip =>
    cases hr : regionOf s.sin with
    | none => exact .inl ⟨_, execStrip_of_noFrame (regionOf_eq_none.mp hr)⟩
    | some region => exact .inl ⟨_, execStrip_of_frame (regionOf_eq_some.mp hr)⟩
  | encodeFrame =>
    obtain ⟨-, h⟩ | ⟨-, ⟨-, h⟩ | ⟨-, -, h⟩⟩ := execEncodeFrame_cases s
    · exact .inr h
    · exact .inl ⟨_, h⟩
    · exact .inl ⟨_, h⟩
  | decodeFrame =>
    obtain ⟨-, h⟩ | ⟨-, ⟨-, h⟩ | ⟨region, -, ⟨-, h⟩ | ⟨-, h⟩⟩⟩ := execDecodeFrame_cases s
    · exact .inr h
    · exact .inl ⟨_, h⟩
    · exact .inl ⟨_, h⟩
    · exact .inl ⟨_, h⟩

theorem exec_next_gives {i : Instr} {s t : State} (h : exec i s = .next t) : ∃ r, t = s.give r := by
  obtain ⟨r, hr⟩ | hr := exec_gives_or_refuses i s
  · exact ⟨r, by rw [hr] at h; cases h; rfl⟩
  · rw [hr] at h; cases h

theorem nextMove_nil {s : State} (h : s.moves = []) : nextMove s = .next s := by
  simp [nextMove, h]

theorem nextMove_cons {s : State} {m : HostMove} {rest : List HostMove} (h : s.moves = m :: rest) :
    nextMove s = performMove m (s.hostGoesOn rest) := by
  simp [nextMove, h]

theorem performCommand_of_decoded {s : State} {i : Instr} (h : decode s.cmd = .ok i) : performCommand s = exec i s := by
  simp [performCommand, h]

theorem performCommand_of_rejected {s : State} {e : Reject} (h : decode s.cmd = .error e) :
    performCommand s = .next (s.give (Result.ofError .illegalOperation)) := by
  simp [performCommand, h]

end Sys2Proof.Machine
end

