-- ==== Sys2Proof/Laws/Flags.lean ====
section
/-! SUPPORT. The parities and the syndrome bit by bit, and what the encoder's bits are. -/

namespace Sys2Proof.Machine

@[simp] theorem parity_nil : parity [] = false := rfl

@[simp] theorem parity_cons (b : Bit) (rest : Bits) : parity (b :: rest) = xor b (parity rest) := rfl

@[simp] theorem bitsAt_nil (v : CodeWord) : bitsAt v [] = [] := rfl

@[simp] theorem bitsAt_cons (v : CodeWord) (p : Nat) (ps : List Nat) : bitsAt v (p :: ps) = v.getLsbD p :: bitsAt v ps := rfl

theorem correct_of_zero {m : FlipMap} {b : CodeWord} (h : syndrome b = 0#3) : correct m b = b := by
  simp [correct, h]

theorem correct_of_nonzero {m : FlipMap} {b : CodeWord} (h : syndrome b ≠ 0#3) :
    correct m b = b ^^^ (1#8 <<< flipPosition m (syndrome b)) := by
  simp [correct, h]

/-- The two terms of the count are single bits, so their sum is at most 2 and the two bits of `count` hold it whole. -/
theorem correctionCount_toNat (m : FlipMap) (b : CodeWord) :
    (correctionCount m b).toNat = (errorFlag b).toNat + (parityFails (correct m b)).toNat := by
  have h1 := Bool.toNat_le (errorFlag b)
  have h2 := Bool.toNat_le (parityFails (correct m b))
  simp only [correctionCount, BitVec.toNat_ofNat]
  omega

@[simp] theorem hammingDecode_syndrome (m : FlipMap) (b : CodeWord) : (hammingDecode m b).diag.syndrome = syndrome b := rfl

@[simp] theorem hammingDecode_word (m : FlipMap) (b : CodeWord) : (hammingDecode m b).diag.word = correct m b := rfl

@[simp] theorem hammingDecode_error (m : FlipMap) (b : CodeWord) : (hammingDecode m b).diag.error = errorFlag b := rfl

@[simp] theorem hammingDecode_count (m : FlipMap) (b : CodeWord) :
    (hammingDecode m b).diag.count = correctionCount m b := rfl

@[simp] theorem hammingDecode_nibble (m : FlipMap) (b : CodeWord) :
    (hammingDecode m b).nibble = (correct m b).setWidth 4 := rfl

end Sys2Proof.Machine
end

