-- ==== Sys2Proof/Laws/PerInstr.lean ====
section
/-! SUPPORT. Statements made for every operation, one lemma per constructor. -/

/-- R60, R61: the three fields of an operation's command word: OP is its opcode, RSV is 0, OPD is its operand byte. -/
def Sys2Proof.Laws.FieldsOfTheWord.Statement (i : Sys2Proof.Instr) : Prop :=
  Sys2Proof.opField (Sys2Proof.encode i) = Sys2Proof.opcode i ∧
    Sys2Proof.rsvField (Sys2Proof.encode i) = 0#5 ∧ Sys2Proof.opdField (Sys2Proof.encode i) = Sys2Proof.operandByte i

theorem Sys2Proof.Laws.fields_of_append (a : BitVec 8) (b : BitVec 3) :
    Sys2Proof.opField ((a ++ 0#5) ++ b) = b ∧ Sys2Proof.rsvField ((a ++ 0#5) ++ b) = 0#5 ∧
      Sys2Proof.opdField ((a ++ 0#5) ++ b) = a := by
  refine ⟨?_, ?_, ?_⟩ <;> apply BitVec.eq_of_getLsbD_eq <;> intro i hi
  · rw [Sys2Proof.opField, BitVec.getLsbD_extractLsb', Nat.zero_add, BitVec.getLsbD_append, if_pos hi]
    simp [hi]
  · have h : ¬ 3 + i < 3 := by omega
    simp only [Sys2Proof.rsvField, BitVec.getLsbD_extractLsb', BitVec.getLsbD_append, if_neg h,
      Nat.add_sub_cancel_left]
    simp [hi]
  · have h : ¬ 8 + i < 3 := by omega
    have h' : ¬ 8 + i - 3 < 5 := by omega
    simp only [Sys2Proof.opdField, BitVec.getLsbD_extractLsb', BitVec.getLsbD_append, if_neg h, if_neg h',
      show 8 + i - 3 - 5 = i by omega]
    simp [hi]

theorem Sys2Proof.Laws.FieldsOfTheWord.enc (n : Sys2Proof.Nibble) :
    Sys2Proof.Laws.FieldsOfTheWord.Statement (.enc n) := Sys2Proof.Laws.fields_of_append _ _

theorem Sys2Proof.Laws.FieldsOfTheWord.dec (b : Sys2Proof.CodeWord) :
    Sys2Proof.Laws.FieldsOfTheWord.Statement (.dec b) := Sys2Proof.Laws.fields_of_append _ _

theorem Sys2Proof.Laws.FieldsOfTheWord.wrap :
    Sys2Proof.Laws.FieldsOfTheWord.Statement .wrap := Sys2Proof.Laws.fields_of_append _ _

theorem Sys2Proof.Laws.FieldsOfTheWord.strip :
    Sys2Proof.Laws.FieldsOfTheWord.Statement .strip := Sys2Proof.Laws.fields_of_append _ _

theorem Sys2Proof.Laws.FieldsOfTheWord.encodeFrame :
    Sys2Proof.Laws.FieldsOfTheWord.Statement .encodeFrame := Sys2Proof.Laws.fields_of_append _ _

theorem Sys2Proof.Laws.FieldsOfTheWord.decodeFrame :
    Sys2Proof.Laws.FieldsOfTheWord.Statement .decodeFrame := Sys2Proof.Laws.fields_of_append _ _
end

