-- ==== Sys2Proof/Tests/Slice0.lean ====
section
/-! SUPPORT. The model's own tests. Expected values are the spec's: 95_test_vectors.md, by section, and the rules named. The
second half shows, for each statement of Certificates/Slice0/Obligations.lean that has hypotheses, values that meet them. -/

namespace Sys2Proof.Machine.Tests

/-- Bits written as digits, first bit first. -/
def bits (ds : List Nat) : Bits := ds.map (· == 1)

/-- The block as built, with `sin` on the stream port. -/
def holding (sin : Bits) : State := { State.reset with sin := sin }

/-- A block of another build, with `sin` on the stream port. -/
def built (w : GroupWidth) (m : FlipMap) (bound : Option Nat) (sin : Bits) : State :=
  { State.reset with sin := sin, params := { width := w, flipMap := m, maxNibbles := bound } }

/-- The block as built, its host about to issue one command. -/
def issuing (cmd : CmdWord) (sin : Bits) : State := { State.reset with moves := [.issue cmd sin] }

/-- The result on the ports after a step or an operation. -/
def resultOf (o : Outcome) : Option Result :=
  match o with
  | .next t => t.result
  | _ => none

/-- Whether an outcome is a refusal. -/
def isRefused (o : Outcome) : Bool :=
  match o with
  | .refused _ => true
  | _ => false

/-- 1111 01010101 0000, the frame of payload 0101 (2.8). -/
def frame0101 : Bits := bits [1, 1, 1, 1, 0, 1, 0, 1, 0, 1, 0, 1, 0, 0, 0, 0]

-- Well-formedness: each check refuses an ill-formed term (2.6, R63, R64)

theorem test_wf_enc_with_stream : WellFormed (.enc 5#4) [false] = false := by decide
theorem test_wf_dec_with_stream : WellFormed (.dec 0xD5#8) [false] = false := by decide
theorem test_wf_enc_alone : WellFormed (.enc 5#4) [] = true := by decide
theorem test_illegal_op_110 : reservedOp 0x0006#16 = true ∧ illegalCommand 0x0006#16 [] = true := by decide
theorem test_illegal_op_111 : reservedOp 0x0007#16 = true ∧ illegalCommand 0xFFFF#16 [] = true := by decide
theorem test_illegal_rsv : reservedBitsSet 0x0008#16 = true ∧ illegalCommand 0x0009#16 [] = true := by decide
theorem test_illegal_enc_upper : encUpperOperandSet 0x1500#16 = true ∧ illegalCommand 0x1500#16 [] = true := by decide
theorem test_illegal_stream_operand :
    streamOperandBitsSet 0x0102#16 = true ∧ illegalCommand 0x0102#16 (bits [0, 1, 0, 1]) = true := by decide
theorem test_illegal_fixed_with_stream :
    fixedOpHasStream 0xD501#16 [false] = true ∧ illegalCommand 0xD501#16 [false] = true := by decide
theorem test_legal_words :
    illegalCommand 0x0F00#16 [] = false ∧ illegalCommand 0xD501#16 [] = false ∧
      illegalCommand 0x0002#16 (bits [0, 1, 0, 1]) = false := by decide

-- Decoding: one word of each operation, bit by bit from the table's encodings, and the rejections by name

theorem test_decode_enc : decode 0b0000101100000000#16 = .ok (.enc 0b1011#4) := by decide
theorem test_decode_dec : decode 0b1101010100000001#16 = .ok (.dec 0b11010101#8) := by decide
theorem test_decode_wrap : decode 0b0000000000000010#16 = .ok .wrap := by decide
theorem test_decode_strip : decode 0b0000000000000011#16 = .ok .strip := by decide
theorem test_decode_encodeFrame : decode 0b0000000000000100#16 = .ok .encodeFrame := by decide
theorem test_decode_decodeFrame : decode 0b0000000000000101#16 = .ok .decodeFrame := by decide
theorem test_decode_rejects :
    decode 0x0006#16 = .error .reservedOp ∧ decode 0x0007#16 = .error .reservedOp ∧
      decode 0x0009#16 = .error .reservedBits ∧ decode 0x1500#16 = .error .encUpperOperand ∧
      decode 0x0105#16 = .error .streamOperand := by decide
theorem test_encode_words :
    encode (.enc 5#4) = 0x0500#16 ∧ encode (.dec 0x55#8) = 0x5501#16 ∧ encode .strip = 0x0003#16 := by decide
theorem test_decodeTableWord :
    decodeTableWord 16 0x0F00 = some (.enc 15#4) ∧ decodeTableWord 16 0x0005 = some .decodeFrame ∧
      decodeTableWord 16 0x1500 = none ∧ decodeTableWord 8 0x02 = some .wrap := by decide

-- ENC (2.1)

theorem test_enc_5 : resultOf (exec (.enc 5#4) (holding [])) = some (Result.ofEnc 0x55#8) := by decide
theorem test_enc_codes :
    [1#4, 2#4, 4#4, 8#4, 14#4].map hammingEncode = [0xE1#8, 0xD2#8, 0xB4#8, 0x78#8, 0x1E#8] := by decide

-- DEC (2.3): nibble, error, count, syndrome, word

theorem test_dec_column_two_flips :
    hammingDecode .column 0x56#8 =
      { nibble := 2#4, diag := { error := true, count := 2#2, syndrome := 6#3, word := 0x52#8 } } := by decide
theorem test_dec_shift_syndrome_7 :
    hammingDecode .shift 0x5D#8 =
      { nibble := 13#4, diag := { error := true, count := 1#2, syndrome := 7#3, word := 0xDD#8 } } := by decide
/-- R107's example on the ports of R28: 0x55 at [13:6], syndrome 5 at [5:3], count 1 at [2:1], error at [0]. -/
theorem test_dec_ports :
    (resultOf (exec (.dec 0x57#8) (holding []))).map (fun r => (r.rdata, r.rdiag)) =
      some (some 0x05#8, some 0b01010101101011#14) := by decide

-- WRAP and STRIP (2.7)

theorem test_wrap : resultOf (exec .wrap (holding (bits [1]))) =
    some (Result.ofStream (bits [1, 1, 1, 1, 1, 0, 0, 0, 0])) := by decide
theorem test_strip : resultOf (exec .strip (holding frame0101)) =
    some (Result.ofStream (bits [0, 1, 0, 1, 0, 1, 0, 1])) := by decide
theorem test_strip_overlap : resultOf (exec .strip (holding (bits [1, 1, 1, 1, 0, 0, 0]))) =
    some (Result.ofError .syncError) := by decide

-- ENCODE_FRAME (2.8) and DECODE_FRAME (2.9)

theorem test_encodeFrame_seven :
    resultOf (exec .encodeFrame (built .seven .column none (bits [0, 0, 0, 1, 1, 1, 1, 1]))) =
      some (Result.ofStream (bits [1, 1, 1, 1, 1, 1, 0, 0, 0, 0, 1, 1, 1, 1, 1, 1, 1, 1, 0, 0, 0, 0])) := by decide
theorem test_encodeFrame_bad_length :
    resultOf (exec .encodeFrame (holding (bits [0, 1, 0, 1, 0]))) =
      some (Result.ofError .invalidPayloadLength) := by decide
theorem test_decodeFrame_corrects :
    resultOf (exec .decodeFrame (holding
      (bits [1, 1, 1, 1, 1, 0, 1, 0, 0, 0, 0, 1, 1, 1, 1, 1, 1, 1, 1, 1, 0, 0, 0, 0]))) =
      some (Result.ofDecodedFrame (bits [0, 0, 0, 1, 1, 1, 1, 1])
        [{ error := true, count := 1#2, syndrome := 1#3, word := 0xE1#8 },
         { error := false, count := 0#2, syndrome := 0#3, word := 0xFF#8 }]) := by decide
theorem test_decodeFrame_short_region :
    resultOf (exec .decodeFrame (holding (bits [1, 1, 1, 1, 0, 1, 0, 1, 0, 1, 0, 0, 0, 0, 0]))) =
      some (Result.ofError .malformedGroupError) := by decide

-- MAX_NIBBLES (R8): the bound itself fits, one more group does not

theorem test_bound :
    isRefused (exec .encodeFrame (built .eight .column (some 1) (bits [0, 1, 0, 1]))) = false ∧
      isRefused (exec .encodeFrame (built .eight .column (some 1) (bits [0, 1, 0, 1, 0]))) = true ∧
      isRefused (exec .decodeFrame (built .eight .column (some 1) frame0101)) = false ∧
      isRefused (exec .decodeFrame (built .eight .column (some 1) (frame0101 ++ [false]))) = true := by decide

-- The channel (2.6, 3.3) and reset (R181, R182)

theorem test_step_illegal : resultOf (step (issuing 0x0006#16 [])) = some (Result.ofError .illegalOperation) := by decide
theorem test_step_dec_with_stream :
    resultOf (step (issuing 0xD501#16 [false])) = some (Result.ofError .illegalOperation) := by decide
theorem test_step_priority : resultOf (step (issuing 0x0005#16 (bits [0, 1, 1, 1, 0, 1, 0, 1, 0, 1, 0, 0, 0, 0, 0]))) =
    some (Result.ofError .syncError) := by decide
theorem test_fetched_word_runs :
    resultOf (step (State.reset.withFetchWord 16 0x0500)) = some (Result.ofEnc 0x55#8) := by decide
theorem test_cut_operation_gives_nothing :
    resultOf (step { issuing 0#16 [] with result := some (Result.ofEnc 1#8), moves := [.issueCutByReset 0x0500#16 []] }) =
      none := by decide

-- Assembly (R70, 3.3)

theorem test_parse_binary : (parseLine ['E', 'N', 'C', ' ', '0', 'b', '0', '1', '0', '1']).map assemble =
    some (0x0500#16, []) := by decide
theorem test_parse_hex : (parseLine ['D', 'E', 'C', ' ', '0', 'x', '5', '5']).map assemble =
    some (0x5501#16, []) := by decide
theorem test_parse_bits :
    (parseLine ['W', 'R', 'A', 'P', ' ', '"', '0', '1', '"']).map assemble = some (0x0002#16, bits [0, 1]) ∧
      parseLine ['E', 'N', 'C', ' ', '1', '6'] = none ∧ parseLine ['e', 'n', 'c', ' ', '1'] = none := by decide
theorem test_print_illegal : writeDisassembly (disassemble 0x0006#16 []) =
    ['.', 'i', 'l', 'l', 'e', 'g', 'a', 'l', ' ', '0', 'x', '0', '0', '0', '6'] := by decide

-- Values that meet the hypotheses of the statements, at the ends of their ranges

theorem witness_issued : (issuing 0x0500#16 []).moves = .issue 0x0500#16 [] :: [] ∧
    decode 0x0500#16 = .ok (.enc 5#4) := by decide
theorem witness_two_commands : ∃ (s s1 : State), s.moves = .issue 0x0006#16 [] :: .issue 0x0006#16 [] :: [] ∧
    step s = .next s1 := ⟨{ State.reset with moves := [.issue 0x0006#16 [], .issue 0x0006#16 []] }, _, rfl, rfl⟩
theorem witness_same_build :
    (issuing 0x0500#16 []).params.width = ({ holding [true] with moves := [.issue 0x0500#16 []] } : State).params.width ∧
      (issuing 0x0500#16 []).params.flipMap = ({ holding [true] with moves := [.issue 0x0500#16 []] } : State).params.flipMap ∧
      (issuing 0x0500#16 []).params.maxNibbles = none := by decide
theorem witness_command_sequence :
    ({ State.reset with moves := [.issue 0x0500#16 [], .issue 0x5601#16 []] } : State).moves =
      [(0x0500#16, ([] : Bits)), (0x5601#16, [])].map (fun c => HostMove.issue c.1 c.2) ++ [] ∧
      [(0x0500#16, ([] : Bits)), (0x5601#16, [])][1]? = some (0x5601#16, []) := by decide
theorem witness_idle : State.reset.moves = [] ∧ State.reset.result = none := by decide
theorem witness_no_issue : ∀ cmd sin rest, State.reset.moves ≠ .issue cmd sin :: rest := by simp [State.reset, State.afterReset]
theorem witness_reset_then_issue :
    ({ State.reset with moves := [.reset, .issue 0x0500#16 []] } : State).moves = .reset :: [.issue 0x0500#16 []] ∧
      ({ State.reset with moves := [.issueCutByReset 0x0500#16 [], .issue 0x0500#16 []] } : State).moves =
        .issueCutByReset 0x0500#16 [] :: [.issue 0x0500#16 []] := by decide
theorem witness_run : ∃ t, Host.Core.run Sys2Proof.core 1 (issuing 0x0500#16 []) = .next t := ⟨_, rfl⟩
theorem witness_exec : ∃ t r, exec .wrap State.reset = .next t ∧ t.result = some r ∧ r.status = .ok := ⟨_, _, rfl, rfl, rfl⟩
theorem witness_exec_error : ∃ t r, exec .strip State.reset = .next t ∧ t.result = some r ∧ r.status ≠ .ok :=
  ⟨_, _, rfl, rfl, by decide⟩
theorem witness_refused : ∃ r, exec .decodeFrame (built .eight .column (some 1) (frame0101 ++ [false])) = .refused r :=
  ⟨_, rfl⟩
theorem witness_each_error :
    resultOf (step (issuing 0x0003#16 [])) = some (Result.ofError .syncError) ∧
      resultOf (step (issuing 0x0004#16 [])) = some (Result.ofError .invalidPayloadLength) ∧
      resultOf (step (issuing 0x0005#16 (bits [1, 1, 1, 1, 1, 0, 0, 0, 0]))) = some (Result.ofError .malformedGroupError) :=
  by decide
theorem witness_bounded_build_fits : fitsPayload (built .eight .column (some 1) []).params 4 ∧
    fitsFrame (built .eight .column (some 1) []).params 16 ∧ ¬ fitsPayload (built .eight .column (some 1) []).params 5 ∧
    ¬ fitsFrame (built .eight .column (some 1) []).params 17 := by
  simp [fitsPayload, fitsFrame, built, GroupWidth.bits]
theorem witness_unbounded_build_fits (len : Nat) : fitsPayload State.reset.params len ∧ fitsFrame State.reset.params len := by
  simp [fitsPayload, fitsFrame, State.reset, State.afterReset, Params.hamcore]
theorem witness_no_stream : (holding []).sin = [] ∧ (holding []).params.flipMap = .column ∧
    (built .eight .shift none []).sin = [] ∧ (built .eight .shift none []).params.flipMap = .shift := by decide
theorem witness_with_stream : (holding [true]).sin ≠ [] := by decide
theorem witness_enc_command : (0x0F00#16).extractLsb' 0 8 = 0#8 ∧ (0x0F00#16).extractLsb' 12 4 = 0#4 := by decide
theorem witness_weights : weight 0x01#8 = 1 ∧ weight 0x40#8 = 1 ∧ weight 0x80#8 = 1 ∧
    (weight 0x60#8 = 2 ∧ (0x60#8).getLsbD 7 = false) ∧ (weight 0x81#8 = 2 ∧ (0x81#8).getLsbD 7 = true) ∧
    weight 0xE0#8 = 3 := by decide
theorem witness_syndromes : syndrome 0x55#8 = 0#3 ∧ syndrome 0x5D#8 = 7#3 ∧ syndrome 0x15#8 = 1#3 := by decide
theorem witness_markers : hasMarkers (bits [1, 1, 1, 1, 0, 0, 0, 0]) ∧ hasMarkers frame0101 ∧
    ¬ hasMarkers (bits [1, 1, 1, 1, 0, 0, 0]) ∧ ¬ hasMarkers (bits [1, 1, 1, 1, 0, 0, 0, 1]) := by
  simp [hasMarkers, bits, frame0101]
theorem witness_whole_groups : (frame0101.length - 8) % (holding frame0101).params.width.bits = 0 ∧
    ((bits [1, 1, 1, 1, 1, 0, 0, 0, 0]).length - 8) % (holding []).params.width.bits ≠ 0 := by decide
theorem witness_region : (holding frame0101).sin =
    [true, true, true, true] ++ bits [0, 1, 0, 1, 0, 1, 0, 1] ++ [false, false, false, false] := by decide
theorem witness_payload : 0 < (holding (bits [0, 1, 0, 1])).sin.length ∧ (holding (bits [0, 1, 0, 1])).sin.length % 4 = 0 ∧
    (holding (bits [0, 1, 0, 1])).sin = [5#4].flatMap (ser 4) := by decide
theorem witness_payload_nibble : 4 * 0 + 4 ≤ (bits [0, 1, 0, 1]).length := by decide
theorem witness_seven_bit_build : (built .seven .column none (bits [0, 1, 0, 1])).params.width = .seven ∧
    (built .seven .column none (bits [0, 1, 0, 1])).sin = [5#4].flatMap (ser 4) := by decide
/-- R145 with 0xE1 in the second group, bits 5 and 6 wrong, one group before it and none after. -/
theorem witness_seven_bit_group : (built .seven .column none
      ([true, true, true, true] ++ (ser 7 0x55#8 ++ ser 7 (hammingEncode 1#4 ^^^ 0x60#8) ++ []) ++
        [false, false, false, false])).sin =
      [true, true, true, true] ++ (ser 7 0x55#8 ++ ser 7 (hammingEncode 1#4 ^^^ 0x60#8) ++ []) ++
        [false, false, false, false] ∧
    (ser 7 0x55#8).length = 7 * 1 ∧ ([] : Bits).length % 7 = 0 ∧ (0x60#8).getLsbD 7 = false ∧ weight 0x60#8 = 2 := by decide
theorem witness_answers : answersStream .wrap (holding []) (bits [1, 1, 1, 1, 0, 0, 0, 0]) ∧
    answersStream .strip (holding (bits [1, 1, 1, 1, 0, 0, 0, 0])) [] ∧
    answersStream .encodeFrame (holding (bits [0, 1, 0, 1])) frame0101 ∧
    answersFrame (holding (bits [1, 1, 1, 1, 0, 0, 0, 0])) [] [] := ⟨rfl, rfl, rfl, rfl⟩
theorem witness_frame_groups : ∀ g ∈ [(5#4, 0x01#8), (1#4, 0x60#8)], weight g.2 ≤ 2 := by
  simp only [List.forall_mem_cons]
  exact ⟨by decide, by decide, by simp⟩
theorem witness_single_flips : ∀ g ∈ [(5#4, 0x01#8), (1#4, 0x80#8), (15#4, 0x00#8)], weight g.2 ≤ 1 := by
  simp only [List.forall_mem_cons]
  exact ⟨by decide, by decide, by decide, by simp⟩
/-- A good state that no run from reset reaches: another build, with a result no command has given. -/
theorem witness_good_state : (({ built .seven .shift (some 1) [] with
    result := some (Result.ofEnc 0x01#8), moves := [.issue 0x0500#16 []] } : State)).Inv := by
  refine ⟨by decide, ?_⟩
  intro r h
  cases h
  decide

end Sys2Proof.Machine.Tests
end

section
/-! PROOF. Serialising sends the most significant bit first, and deserialising reads it back (spec R14). -/

namespace Sys2Proof.Machine

/-- The value of a sequence is its weighted sum: bit `i` of `n` counts `2^(n-1-i)`. -/
theorem deser_eq_sum (S : Bits) :
    deser S = ((List.range S.length).map fun i => (S[i]?.getD false).toNat * 2 ^ (S.length - 1 - i)).sum := by
  induction S with
  | nil => rfl
  | cons b rest ih =>
    rw [deser_cons, ih, List.length_cons, List.range_succ_eq_map]
    simp [Function.comp_def, Nat.sub_sub, Nat.add_comm 1]

/-- R14: enough bits carry the whole value. -/
theorem deser_ser_of_le {w k : Nat} (h : w ≤ k) (v : BitVec w) : deser (ser k v) = v.toNat := by
  rw [deser_ser_eq_mod, Nat.mod_eq_of_lt (BitVec.toNat_lt_twoPow_of_le h)]

/-- R14: the low `k` bits are what `k` sent bits carry. -/
theorem deser_ser_eq_extractLsb' {w : Nat} (k : Nat) (v : BitVec w) : deser (ser k v) = (v.extractLsb' 0 k).toNat := by
  rw [deser_ser_eq_mod, BitVec.extractLsb'_toNat, Nat.shiftRight_zero]

/-- Settles O34: the length and the places of the sent bits by induction on how many are sent, the weighted sum by
induction on the sequence, and both round trips from the value modulo `2^k`. -/
theorem serialisationIsMostSignificantFirst : Obligations.SerialisationIsMostSignificantFirst :=
  ⟨fun _ k v => ⟨ser_length k v, fun _ hi => ser_getElem? v hi, fun h => deser_ser_of_le h v⟩,
    deser_eq_sum, deser_ser_eq_extractLsb' 7⟩

end Sys2Proof.Machine
end

section
/-! SUPPORT. The result of an operation and of a command as a function of what R30 names, the equation of `exec` and of the
channel with it, and what a step does with each move of the host. -/

namespace Sys2Proof.Machine

/-- R30: the result of an operation that the bound of R8 lets run, from `W`, `FLIP_MAP` and the stream operand.
`decodeGroups` does not read the bound, so any stands for it. -/
def operationResult (w : GroupWidth) (m : FlipMap) (sin : Bits) : Instr → Result
  | .enc n => if sin = [] then .ofEnc (hammingEncode n) else .ofError .illegalOperation
  | .dec b => if sin = [] then .ofDec (hammingDecode m b) else .ofError .illegalOperation
  | .wrap => .ofStream (frameOf sin)
  | .strip => (regionOf sin).elim (.ofError .syncError) .ofStream
  | .encodeFrame =>
    if sin.length = 0 ∨ sin.length % 4 ≠ 0 then .ofError .invalidPayloadLength
    else .ofStream (frameOf (encodeGroups w sin))
  | .decodeFrame => (regionOf sin).elim (.ofError .syncError) fun region =>
    if region.length % w.bits ≠ 0 then .ofError .malformedGroupError
    else
      let ds := decodeGroups ⟨w, m, none⟩ region
      .ofDecodedFrame (serNibbles (ds.map Decoded.nibble)) (ds.map Decoded.diag)

/-- R8: whether the bound refuses the operand of an operation. -/
def operandOverlong (p : Params) (sin : Bits) : Instr → Bool
  | .encodeFrame => exceedsMaxNibbles p 0 4 sin.length
  | .decodeFrame => exceedsMaxNibbles p 8 p.width.bits sin.length
  | _ => false

/-- R30: the result of a command word with its stream operand. -/
def commandResult (w : GroupWidth) (m : FlipMap) (cmd : CmdWord) (sin : Bits) : Result :=
  match decode cmd with
  | .ok i => operationResult w m sin i
  | .error _ => .ofError .illegalOperation

/-- R8: whether the bound refuses a command. -/
def commandOverlong (p : Params) (cmd : CmdWord) (sin : Bits) : Bool :=
  match decode cmd with
  | .ok i => operandOverlong p sin i
  | .error _ => false

theorem requireNoStream_eq (s : State) (r : Result) :
    requireNoStream s r = .next (s.give (if s.sin = [] then r else .ofError .illegalOperation)) := by
  unfold requireNoStream
  split <;> rfl

theorem execStrip_eq (s : State) :
    execStrip s = .next (s.give (operationResult s.params.width s.params.flipMap s.sin .strip)) := by
  unfold execStrip operationResult
  cases regionOf s.sin <;> rfl

theorem encodeFrameBody_eq (s : State) :
    encodeFrameBody s = .next (s.give (operationResult s.params.width s.params.flipMap s.sin .encodeFrame)) := by
  unfold encodeFrameBody operationResult
  split <;> rfl

theorem decodeFrameBody_eq (s : State) :
    decodeFrameBody s = .next (s.give (operationResult s.params.width s.params.flipMap s.sin .decodeFrame)) := by
  unfold decodeFrameBody operationResult
  cases regionOf s.sin with
  | none => rfl
  | some region =>
    simp only [Option.elim_some]
    split <;> rfl

/-- An operation is refused for its operand's length, or puts its result on the ports and changes nothing else. -/
theorem exec_eq (i : Instr) (s : State) :
    exec i s = if operandOverlong s.params s.sin i then .refused .operandExceedsMaxNibbles
      else .next (s.give (operationResult s.params.width s.params.flipMap s.sin i)) := by
  cases i with
  | enc n => exact requireNoStream_eq s _
  | dec b => exact requireNoStream_eq s _
  | wrap => rfl
  | strip => exact execStrip_eq s
  | encodeFrame => rw [← encodeFrameBody_eq]; rfl
  | decodeFrame => rw [← decodeFrameBody_eq]; rfl

theorem exec_next_eq_give {i : Instr} {s t : State} (h : exec i s = .next t) :
    t = s.give (operationResult s.params.width s.params.flipMap s.sin i) := by
  rw [exec_eq] at h
  split at h
  · cases h
  · cases h; rfl

theorem performCommand_eq (s : State) :
    performCommand s = if commandOverlong s.params s.cmd s.sin then .refused .operandExceedsMaxNibbles
      else .next (s.give (commandResult s.params.width s.params.flipMap s.cmd s.sin)) := by
  unfold performCommand commandOverlong commandResult
  cases decode s.cmd with
  | ok i => exact exec_eq i s
  | error e => rfl

theorem commandOverlong_congr {p q : Params} (hw : p.width = q.width) (hm : p.maxNibbles = q.maxNibbles)
    (cmd : CmdWord) (sin : Bits) : commandOverlong p cmd sin = commandOverlong q cmd sin := by
  unfold commandOverlong operandOverlong exceedsMaxNibbles
  rw [hw, hm]

theorem step_of_issue {s : State} {cmd : CmdWord} {sin : Bits} {rest : List HostMove}
    (h : s.moves = .issue cmd sin :: rest) : step s = performCommand ((s.hostGoesOn rest).present cmd sin) :=
  nextMove_cons h

theorem step_of_issue_eq {s : State} {cmd : CmdWord} {sin : Bits} {rest : List HostMove}
    (h : s.moves = .issue cmd sin :: rest) :
    step s = if commandOverlong s.params cmd sin then .refused .operandExceedsMaxNibbles
      else .next (((s.hostGoesOn rest).present cmd sin).give (commandResult s.params.width s.params.flipMap cmd sin)) := by
  rw [step_of_issue h, performCommand_eq]
  rfl

/-- R30: the result of an issued command is that of the command word and the stream operand in this build. -/
theorem step_of_issue_result {s s' : State} {cmd : CmdWord} {sin : Bits} {rest : List HostMove}
    (h : s.moves = .issue cmd sin :: rest) (hs : step s = .next s') :
    s'.result = some (commandResult s.params.width s.params.flipMap cmd sin) := by
  rw [step_of_issue_eq h] at hs
  split at hs
  · cases hs
  · cases hs; rfl

theorem step_of_issue_completes {s : State} {cmd : CmdWord} {sin : Bits} {rest : List HostMove}
    (h : s.moves = .issue cmd sin :: rest) :
    (∃ s', step s = .next s') ↔ commandOverlong s.params cmd sin = false := by
  rw [step_of_issue_eq h]
  cases commandOverlong s.params cmd sin <;> simp

theorem step_of_noMove {s : State} (h : s.moves = []) : step s = .next s := nextMove_nil h

theorem step_of_reset {s : State} {rest : List HostMove} (h : s.moves = .reset :: rest) :
    step s = .next (s.hostGoesOn rest).resetBlock := nextMove_cons h

theorem step_of_issueCutByReset {s : State} {cmd : CmdWord} {sin : Bits} {rest : List HostMove}
    (h : s.moves = .issueCutByReset cmd sin :: rest) :
    step s = .next ((s.hostGoesOn rest).present cmd sin).resetBlock := nextMove_cons h

end Sys2Proof.Machine
end

section
/-! PROOF. What the result depends on (spec R30). -/

namespace Sys2Proof.Machine

/-- Settles O10: both results are `commandResult` of the same build and command, and both refusals are `commandOverlong`. -/
theorem resultDependsOnlyOnCommandAndParameters : Obligations.ResultDependsOnlyOnCommandAndParameters := by
  intro s t cmd sin restS restT hw hf hs ht
  refine ⟨fun s' t' hs' ht' => ?_, fun hm => ?_⟩
  · rw [step_of_issue_result hs hs', step_of_issue_result ht ht', hw, hf]
    exact ⟨rfl, Option.some_ne_none _⟩
  · rw [step_of_issue_completes hs, step_of_issue_completes ht, commandOverlong_congr hw hm]

end Sys2Proof.Machine
end

section
/-! PROOF. The outputs of each operation (spec R28, R45). -/

namespace Sys2Proof.Machine

/-- R28: `rdata[3:0]` carries the nibble and `rdata[7:4]` is 0. -/
theorem setWidth_eight_fields (n : Nibble) :
    (n.setWidth 8).extractLsb' 0 4 = n ∧ (n.setWidth 8).extractLsb' 4 4 = 0#4 := by
  revert n
  decide

/-- R28: the places of the four diagnostics on `rdiag`. -/
theorem packDiag_fields (d : Diag) :
    (packDiag d).getLsbD 0 = d.error ∧ (packDiag d).extractLsb' 1 2 = d.count ∧
      (packDiag d).extractLsb' 3 3 = d.syndrome ∧ (packDiag d).extractLsb' 6 8 = d.word := by
  obtain ⟨e, c, s, w⟩ := d
  refine ⟨?_, ?_, ?_, ?_⟩
  · change (w ++ s ++ c ++ BitVec.ofBool e).getLsbD 0 = e
    rw [BitVec.getLsbD_append]
    simp
  · change (w ++ s ++ c ++ BitVec.ofBool e).extractLsb' 1 2 = c
    rw [BitVec.extractLsb'_append_eq_of_le (le_refl 1), BitVec.extractLsb'_append_eq_right]
  · change (w ++ s ++ c ++ BitVec.ofBool e).extractLsb' 3 3 = s
    rw [BitVec.extractLsb'_append_eq_of_le (by decide), BitVec.extractLsb'_append_eq_of_le (le_refl 2),
      BitVec.extractLsb'_append_eq_right]
  · change (w ++ s ++ c ++ BitVec.ofBool e).extractLsb' 6 8 = w
    rw [BitVec.extractLsb'_append_eq_of_le (by decide), BitVec.extractLsb'_append_eq_of_le (by decide),
      BitVec.extractLsb'_append_eq_left]

/-- R137: whole groups cover the region. -/
theorem decodeGroups_length {w : GroupWidth} {region : Bits} (h : region.length % w.bits = 0) (m : FlipMap)
    (bound : Option Nat) : w.bits * (decodeGroups ⟨w, m, bound⟩ region).length = region.length := by
  rw [decodeGroups, List.length_map, regionWords_length, Nat.mul_div_cancel' (Nat.dvd_of_mod_eq_zero h)]

/-- R28: the result of an operation that completed, row by row, with what the stream operand then was. -/
inductive CompletesWith (w : GroupWidth) (m : FlipMap) (sin : Bits) : Instr → Result → Prop
  | enc (n : Nibble) : CompletesWith w m sin (.enc n) (.ofEnc (hammingEncode n))
  | dec (b : CodeWord) : CompletesWith w m sin (.dec b) (.ofDec (hammingDecode m b))
  | wrap : CompletesWith w m sin .wrap (.ofStream (frameOf sin))
  | strip (region : Bits) (h : sin = frameOf region) : CompletesWith w m sin .strip (.ofStream region)
  | encodeFrame : CompletesWith w m sin .encodeFrame (.ofStream (frameOf (encodeGroups w sin)))
  | decodeFrame (region : Bits) (h : sin = frameOf region) (hw : region.length % w.bits = 0) :
      CompletesWith w m sin .decodeFrame (.ofDecodedFrame
        (serNibbles ((decodeGroups ⟨w, m, none⟩ region).map Decoded.nibble))
        ((decodeGroups ⟨w, m, none⟩ region).map Decoded.diag))

theorem CompletesWith.status_ok {w : GroupWidth} {m : FlipMap} {sin : Bits} {i : Instr} {r : Result}
    (h : CompletesWith w m sin i r) : r.status = .ok := by
  cases h <;> rfl

/-- R45: an operation completes with the outputs of its row, or ends with an error. -/
theorem operationResult_completes_or_error (w : GroupWidth) (m : FlipMap) (sin : Bits) (i : Instr) :
    CompletesWith w m sin i (operationResult w m sin i) ∨ ∃ e, operationResult w m sin i = .ofError e := by
  cases i with
  | enc n =>
    simp only [operationResult]
    split
    · exact .inl (.enc n)
    · exact .inr ⟨_, rfl⟩
  | dec b =>
    simp only [operationResult]
    split
    · exact .inl (.dec b)
    · exact .inr ⟨_, rfl⟩
  | wrap => exact .inl .wrap
  | strip =>
    simp only [operationResult]
    cases hr : regionOf sin with
    | none => exact .inr ⟨_, rfl⟩
    | some region => exact .inl (.strip region (regionOf_eq_some.mp hr))
  | encodeFrame =>
    simp only [operationResult]
    split
    · exact .inr ⟨_, rfl⟩
    · exact .inl .encodeFrame
  | decodeFrame =>
    simp only [operationResult]
    cases hr : regionOf sin with
    | none => exact .inr ⟨_, rfl⟩
    | some region =>
      simp only [Option.elim_some]
      split
      · exact .inr ⟨_, rfl⟩
      · next hw => exact .inl (.decodeFrame region (regionOf_eq_some.mp hr) (not_not.mp hw))

/-- Settles O17: an error's result has no data output, and each completed operation's result is the one of its row. -/
theorem outputsAreThoseOfTheOperation : Obligations.OutputsAreThoseOfTheOperation := by
  intro i s t r hexec hresult
  have hr : r = operationResult s.params.width s.params.flipMap s.sin i := by
    rw [exec_next_eq_give hexec, give_result] at hresult
    exact (Option.some.inj hresult).symm
  obtain hrow | ⟨e, he⟩ := operationResult_completes_or_error s.params.width s.params.flipMap s.sin i
  · rw [← hr] at hrow
    refine ⟨fun h => absurd hrow.status_ok h, fun _ => ⟨?_, ?_, ?_, ?_, ?_⟩⟩
    · rintro n rfl
      cases hrow
      exact ⟨rfl, rfl, rfl, rfl⟩
    · rintro b rfl
      cases hrow
      obtain ⟨hnibble, hzero⟩ := setWidth_eight_fields (hammingDecode s.params.flipMap b).nibble
      exact ⟨rfl, rfl, _, _, rfl, rfl, hnibble, hzero, packDiag_fields _⟩
    · rintro (rfl | rfl) <;> cases hrow <;> exact ⟨rfl, rfl, rfl, _, rfl⟩
    · rintro rfl
      cases hrow with
      | strip region h => exact ⟨rfl, rfl, rfl, region, rfl, h⟩
    · rintro rfl
      cases hrow with
      | decodeFrame region h hw =>
        refine ⟨rfl, rfl, _, _, rfl, rfl, ?_, ?_⟩
        · rw [serNibbles_length, List.length_map, List.length_map]
        · rw [h, frameOf_length, List.length_map, decodeGroups_length hw, Nat.add_comm]
  · rw [hr, he]
    exact ⟨fun _ => ⟨rfl, rfl, rfl, rfl⟩, nofun⟩

end Sys2Proof.Machine
end

section
/-! PROOF. No result before the first (spec R29). -/

namespace Sys2Proof.Machine

/-- R29, R181: a move that issues nothing puts no result on the ports. -/
theorem step_keeps_noResult {s t : State} (hr : s.result = none)
    (hm : ∀ cmd sin rest, s.moves ≠ .issue cmd sin :: rest) (h : step s = .next t) : t.result = none := by
  cases hs : s.moves with
  | nil =>
    rw [step_of_noMove hs] at h
    cases h; exact hr
  | cons m rest =>
    cases m with
    | issue cmd sin => exact absurd hs (hm cmd sin rest)
    | reset =>
      rw [step_of_reset hs] at h
      cases h; rfl
    | issueCutByReset cmd sin =>
      rw [step_of_issueCutByReset hs] at h
      cases h; rfl

/-- Settles O13: reset builds a state without a result, and no move but an issued command gives one. -/
theorem resetHoldsNoResult : Obligations.ResetHoldsNoResult :=
  ⟨rfl, rfl, rfl, fun _ _ => ⟨rfl, rfl⟩, fun _ _ => step_keeps_noResult⟩

end Sys2Proof.Machine
end

section
/-! SUPPORT. What an operation that answers has answered, and how a run takes the host's commands one by one. -/

namespace Sys2Proof.Machine

theorem answers_eq_operationResult {i : Instr} {s : State} {r : Result} (h : answers i s r) :
    r = operationResult s.params.width s.params.flipMap s.sin i :=
  Option.some.inj (congrArg State.result (exec_next_eq_give h))

/-- An operation that answers OK has completed with the outputs of its row of R28. -/
theorem answers_ok_completes {i : Instr} {s : State} {r : Result} (h : answers i s r) (hr : r.status = .ok) :
    CompletesWith s.params.width s.params.flipMap s.sin i r := by
  have heq := answers_eq_operationResult h
  obtain hrow | ⟨e, he⟩ := operationResult_completes_or_error s.params.width s.params.flipMap s.sin i
  · rwa [← heq] at hrow
  · rw [heq, he] at hr
    cases hr

/-- R163: ENCODE_FRAME gives a frame only for a payload of whole nibbles. -/
theorem answersStream_encodeFrame_length_mod {s : State} {out : Bits} (h : answersStream .encodeFrame s out) :
    s.sin.length % 4 = 0 := by
  by_contra h4
  have hbad : operationResult s.params.width s.params.flipMap s.sin .encodeFrame = .ofError .invalidPayloadLength :=
    if_pos (.inr h4)
  cases (answers_eq_operationResult h).trans hbad

@[simp] theorem encodeGroups_length (w : GroupWidth) (payload : Bits) :
    (encodeGroups w payload).length = w.bits * (payload.length / 4) := by
  rw [encodeGroups, serWords_length, List.length_map, payloadNibbles_length]

/-- R8: an unbounded build refuses no command. -/
theorem commandOverlong_of_unbounded {p : Params} (h : p.maxNibbles = none) (cmd : CmdWord) (sin : Bits) :
    commandOverlong p cmd sin = false := by
  unfold commandOverlong
  cases decode cmd with
  | ok i => cases i <;> simp [operandOverlong, exceedsMaxNibbles, h]
  | error e => rfl

/-- The one state an issued command can lead to. -/
theorem step_of_issue_next {s s' : State} {cmd : CmdWord} {sin : Bits} {rest : List HostMove}
    (h : s.moves = .issue cmd sin :: rest) (hs : step s = .next s') :
    s' = ((s.hostGoesOn rest).present cmd sin).give (commandResult s.params.width s.params.flipMap cmd sin) := by
  rw [step_of_issue_eq h] at hs
  split at hs
  · cases hs
  · cases hs; rfl

theorem step_of_issue_unbounded {s : State} {cmd : CmdWord} {sin : Bits} {rest : List HostMove}
    (hu : s.params.maxNibbles = none) (h : s.moves = .issue cmd sin :: rest) :
    step s = .next (((s.hostGoesOn rest).present cmd sin).give
      (commandResult s.params.width s.params.flipMap cmd sin)) := by
  rw [step_of_issue_eq h, commandOverlong_of_unbounded hu, if_neg Bool.false_ne_true]

/-- A run whose first step succeeds goes on from there. -/
theorem run_succ_of_step {s t : State} (h : step s = .next t) (k : Nat) :
    Host.Core.run Sys2Proof.core (k + 1) s = Host.Core.run Sys2Proof.core k t := by
  have hcore : Sys2Proof.core.step s = .next t := h
  simp only [Host.Core.run, hcore]

end Sys2Proof.Machine
end

section
/-! PROOF. Commands leave nothing behind and are answered in order (spec R46, R48). -/

namespace Sys2Proof.Machine

/-- Settles O11: the first command has changed only the ports that the second overwrites, and the second's result is
`commandResult` of the unchanged build. -/
theorem noCommandAffectsALaterOne : Obligations.NoCommandAffectsALaterOne := by
  intro s s1 c1 c2 sin1 sin2 rest hm hs
  have hs1 := step_of_issue_next hm hs
  have hm1 : s1.moves = .issue c2 sin2 :: rest := by rw [hs1]; rfl
  have hp1 : s1.params = s.params := by rw [hs1]; rfl
  refine ⟨?_, fun hsame => ?_⟩
  · rw [hs1, step_of_issue_eq rfl, step_of_issue_eq rfl]
    rfl
  · cases hsame
    have hfits : commandOverlong s.params c1 sin1 = false := (step_of_issue_completes hm).mp ⟨s1, hs⟩
    obtain ⟨s2, hs2⟩ := (step_of_issue_completes hm1).mpr (hp1 ▸ hfits)
    refine ⟨s2, hs2, ?_⟩
    rw [step_of_issue_result hm1 hs2, step_of_issue_result hm hs, hp1]

/-- R48: in an unbounded build, `k + 1` steps end with the result of the `k`-th command issued. -/
theorem run_of_issues_result (cmds : List (CmdWord × Bits)) (rest : List HostMove) (s : State)
    (hu : s.params.maxNibbles = none) (hm : s.moves = cmds.map (fun c => HostMove.issue c.1 c.2) ++ rest)
    (k : Nat) (c : CmdWord × Bits) (hk : cmds[k]? = some c) :
    ∃ t : State, Host.Core.run Sys2Proof.core (k + 1) s = .next t ∧
      t.result = some (commandResult s.params.width s.params.flipMap c.1 c.2) := by
  induction cmds generalizing s k with
  | nil => cases hk
  | cons c0 cmds ih =>
    rw [run_succ_of_step (step_of_issue_unbounded hu hm)]
    cases k with
    | zero =>
      cases hk
      exact ⟨_, rfl, rfl⟩
    | succ k =>
      refine ih _ ?_ ?_ k hk
      · exact hu
      · rfl

/-- Settles O12: the run and the command alone both end with `commandResult` of the command in this build. -/
theorem resultsBelongToCommandsInOrder : Obligations.ResultsBelongToCommandsInOrder := by
  intro cmds rest s hu hm k c hk
  obtain ⟨t, hrun, ht⟩ := run_of_issues_result cmds rest s hu hm k c hk
  exact ⟨t, _, _, hrun, step_of_issue_unbounded hu rfl, ht, rfl⟩

end Sys2Proof.Machine
end

section
/-! PROOF. The widths of the stream operations (spec R44). -/

namespace Sys2Proof.Machine

/-- Settles O46: each row of R28 with the lengths of the frame around it and of the groups within. -/
theorem streamOperationsMoveTheirWidths : Obligations.StreamOperationsMoveTheirWidths := by
  intro s out
  refine ⟨fun h => ?wrap, fun h => ?strip, fun h => ?encodeFrame, fun ds h => ?decodeFrame⟩
  case wrap =>
    cases answers_ok_completes h rfl
    exact frameOf_length s.sin
  case strip =>
    cases answers_ok_completes h rfl with
    | strip _ hframe =>
      have hlen := congrArg List.length hframe
      rw [frameOf_length] at hlen
      omega
  case encodeFrame =>
    have h4 := answersStream_encodeFrame_length_mod h
    cases answers_ok_completes h rfl
    refine ⟨s.sin.length / 4, by omega, ?_⟩
    rw [frameOf_length, encodeGroups_length, Nat.add_comm]
  case decodeFrame =>
    cases answers_ok_completes h rfl with
    | decodeFrame region hframe hgroups =>
      refine ⟨(decodeGroups ⟨s.params.width, s.params.flipMap, none⟩ region).length, ?_, ?_⟩
      · rw [hframe, frameOf_length, decodeGroups_length hgroups, Nat.add_comm]
      · rw [serNibbles_length, List.length_map]

end Sys2Proof.Machine
end

section
/-! SUPPORT. The decoder by the fields of the word, and the commands that R64 makes illegal (spec R60 to R64). -/

namespace Sys2Proof

/-- R60: OPD, RSV and OP are the whole word. -/
theorem append_fields (cmd : CmdWord) : (opdField cmd ++ rsvField cmd) ++ opField cmd = cmd := by
  have h : opdField cmd ++ rsvField cmd = cmd.extractLsb' 3 13 :=
    BitVec.extractLsb'_append_extractLsb'_eq_extractLsb' (start₁ := 3) (len₁ := 5) rfl
  have h' : cmd.extractLsb' 3 13 ++ opField cmd = cmd.extractLsb' 0 16 :=
    BitVec.extractLsb'_append_extractLsb'_eq_extractLsb' (start₁ := 0) (len₁ := 3) rfl
  rw [h, h', BitVec.extractLsb'_eq_self]

/-- R61, R62: the operand byte of ENC is the nibble below four zero bits. -/
theorem opdField_eq_setWidth_iff (cmd : CmdWord) (n : Nibble) :
    opdField cmd = n.setWidth 8 ↔ encUpperField cmd = 0#4 ∧ nibbleField cmd = n := by
  have hn := n.isLt
  simp only [opdField, encUpperField, nibbleField, ← BitVec.toNat_inj, BitVec.extractLsb'_toNat, BitVec.toNat_setWidth,
    BitVec.toNat_ofNat, Nat.shiftRight_eq_div_pow]
  omega

/-- R61: the decoder reads an operation off its opcode and its operand byte. -/
theorem decodeOp_eq_ok {cmd : CmdWord} {i : Instr} (h : decodeOp cmd = .ok i) :
    opField cmd = opcode i ∧ opdField cmd = operandByte i := by
  unfold decodeOp streamOp at h
  split at h
  · next ho =>
    split at h <;> cases h
    next hu => exact ⟨BitVec.eq_of_toNat_eq ho, (opdField_eq_setWidth_iff cmd _).mpr ⟨hu, rfl⟩⟩
  · next ho =>
    cases h
    exact ⟨BitVec.eq_of_toNat_eq ho, rfl⟩
  iterate 4
    next ho =>
      split at h <;> cases h
      next hd => exact ⟨BitVec.eq_of_toNat_eq ho, hd⟩
  · cases h

/-- R60, R61: a word spells an operation exactly when OP is its opcode, RSV is 0 and OPD is its operand byte. -/
theorem decode_eq_ok_iff {cmd : CmdWord} {i : Instr} :
    decode cmd = .ok i ↔ rsvField cmd = 0#5 ∧ opField cmd = opcode i ∧ opdField cmd = operandByte i := by
  constructor
  · intro h
    unfold decode at h
    split at h
    · next hr => exact ⟨hr, decodeOp_eq_ok h⟩
    · cases h
  · rintro ⟨hr, ho, hd⟩
    rw [decode, if_pos hr, decodeOp, ho]
    cases i with
    | enc n =>
      obtain ⟨hu, rfl⟩ := (opdField_eq_setWidth_iff cmd n).mp hd
      exact if_pos hu
    | dec b => exact congrArg (Except.ok ∘ Instr.dec) hd
    | wrap => exact if_pos hd
    | strip => exact if_pos hd
    | encodeFrame => exact if_pos hd
    | decodeFrame => exact if_pos hd

theorem opdField_of_decode {cmd : CmdWord} {i : Instr} (h : decode cmd = .ok i) : opdField cmd = operandByte i := by
  obtain ⟨-, -, hd⟩ := decode_eq_ok_iff.mp h
  exact hd

/-- R60: an operation has one word only. -/
theorem encode_of_decode {cmd : CmdWord} {i : Instr} (h : decode cmd = .ok i) : encode i = cmd := by
  obtain ⟨hr, ho, hd⟩ := decode_eq_ok_iff.mp h
  rw [encode, ← hd, ← hr, ← ho, append_fields]

/-- R64: the five clauses by the values of the fields. -/
theorem illegalCommand_iff (cmd : CmdWord) (sin : Bits) :
    illegalCommand cmd sin = true ↔
      (opField cmd).toNat = 6 ∨ (opField cmd).toNat = 7 ∨ (rsvField cmd).toNat ≠ 0 ∨
      ((opField cmd).toNat = 0 ∧ (encUpperField cmd).toNat ≠ 0) ∨
      (((opField cmd).toNat = 2 ∨ (opField cmd).toNat = 3 ∨ (opField cmd).toNat = 4 ∨ (opField cmd).toNat = 5) ∧
        (opdField cmd).toNat ≠ 0) ∨
      (((opField cmd).toNat = 0 ∨ (opField cmd).toNat = 1) ∧ sin ≠ []) := by
  simp [illegalCommand, reservedOp, reservedBitsSet, encUpperOperandSet, streamOperandBitsSet, fixedOpHasStream,
    opField, rsvField, encUpperField, opdField, ← BitVec.toNat_inj, or_assoc]

/-- R64(a), (c), (d): what the OP field rejects. -/
theorem illegalCommand_of_decodeOp_error {cmd : CmdWord} {e : Reject} (h : decodeOp cmd = .error e) (sin : Bits) :
    illegalCommand cmd sin = true := by
  rw [illegalCommand_iff]
  unfold decodeOp streamOp at h
  split at h
  · split at h <;> cases h
    next ho hu =>
      have hu' := mt BitVec.eq_of_toNat_eq hu
      exact .inr (.inr (.inr (.inl ⟨ho, hu'⟩)))
  · cases h
  iterate 4
    split at h <;> cases h
    next ho hd =>
      have hd' := mt BitVec.eq_of_toNat_eq hd
      exact .inr (.inr (.inr (.inr (.inl ⟨by omega, hd'⟩))))
  · have hlt := (opField cmd).isLt
    have h67 : (opField cmd).toNat = 6 ∨ (opField cmd).toNat = 7 := by
      simp only [imp_false] at *
      omega
    exact h67.imp_right .inl

/-- R64(a) to (d): a word that spells no operation is illegal with any stream operand. -/
theorem illegalCommand_of_rejected {cmd : CmdWord} {e : Reject} (h : decode cmd = .error e) (sin : Bits) :
    illegalCommand cmd sin = true := by
  unfold decode at h
  split at h
  · exact illegalCommand_of_decodeOp_error h sin
  · next hr => exact (illegalCommand_iff cmd sin).mpr (.inr (.inr (.inl (mt (BitVec.eq_of_toNat_eq (y := 0#5)) hr))))

/-- R64(e): a word that spells an operation is illegal exactly with a stream operand the operation may not take. -/
theorem illegalCommand_of_decoded {cmd : CmdWord} {i : Instr} (h : decode cmd = .ok i) (sin : Bits) :
    illegalCommand cmd sin = true ↔ WellFormed i sin = false := by
  obtain ⟨hr, ho, hd⟩ := decode_eq_ok_iff.mp h
  rw [illegalCommand_iff, hr, ho, hd]
  cases i with
  | enc n =>
    obtain ⟨hu, -⟩ := (opdField_eq_setWidth_iff cmd n).mp hd
    simp [hu, opcode, WellFormed]
  | dec b => simp [opcode, WellFormed]
  | wrap | strip | encodeFrame | decodeFrame => simp [opcode, operandByte, WellFormed]

/-- R64: a command is legal exactly when its word spells an operation that may take its stream operand. -/
theorem illegalCommand_eq_false_iff (cmd : CmdWord) (sin : Bits) :
    illegalCommand cmd sin = false ↔ ∃ i, decode cmd = .ok i ∧ WellFormed i sin = true := by
  cases hd : decode cmd with
  | ok i =>
    rw [Bool.eq_false_iff, Ne, illegalCommand_of_decoded hd sin]
    simp
  | error e => simp [illegalCommand_of_rejected hd sin]

end Sys2Proof
end

section
/-! PROOF. The operands of a command word (spec R62). -/

namespace Sys2Proof.Machine

/-- Settles O3: OPD is the operand byte of the decoded operation, and an operation has one word only. -/
theorem operandsComeFromTheCommandWord : Obligations.OperandsComeFromTheCommandWord := by
  intro cmd
  refine ⟨fun n h k hk => ?enc, fun b h k hk => ?dec, fun i h _ cmd' h' => ?stream⟩
  case enc =>
    obtain ⟨-, hn⟩ := (opdField_eq_setWidth_iff cmd n).mp (opdField_of_decode h)
    rw [← hn, nibbleField, BitVec.getLsbD_extractLsb', decide_eq_true hk, Bool.true_and]
  case dec =>
    have hb : opdField cmd = b := opdField_of_decode h
    rw [← hb, opdField, BitVec.getLsbD_extractLsb', decide_eq_true hk, Bool.true_and]
  case stream => rw [← encode_of_decode h, ← encode_of_decode h']

end Sys2Proof.Machine
end

section
/-! PROOF. The illegal commands (spec R64, R165). -/

namespace Sys2Proof.Machine

@[simp] theorem ofError_status (e : ErrorClass) : (Result.ofError e).status = .error e := rfl
@[simp] theorem ofEnc_status (c : CodeWord) : (Result.ofEnc c).status = .ok := rfl
@[simp] theorem ofDec_status (d : Decoded) : (Result.ofDec d).status = .ok := rfl
@[simp] theorem ofStream_status (out : Bits) : (Result.ofStream out).status = .ok := rfl
@[simp] theorem ofDecodedFrame_status (out : Bits) (ds : List Diag) : (Result.ofDecodedFrame out ds).status = .ok := rfl

/-- R165: an illegal command's result is IllegalOperation with no data. -/
theorem commandResult_of_illegal {cmd : CmdWord} {sin : Bits} (h : illegalCommand cmd sin = true) (w : GroupWidth)
    (m : FlipMap) : commandResult w m cmd sin = .ofError .illegalOperation := by
  unfold commandResult
  cases hd : decode cmd with
  | error e => rfl
  | ok i =>
    have hw := (illegalCommand_of_decoded hd sin).mp h
    cases i with
    | enc n | dec b => exact if_neg (by simpa [WellFormed] using hw)
    | wrap | strip | encodeFrame | decodeFrame => cases hw

/-- R165: the legality of a command is checked before the bound of R8. -/
theorem commandOverlong_of_illegal {cmd : CmdWord} {sin : Bits} (h : illegalCommand cmd sin = true) (p : Params) :
    commandOverlong p cmd sin = false := by
  unfold commandOverlong
  cases hd : decode cmd with
  | error e => rfl
  | ok i =>
    have hw := (illegalCommand_of_decoded hd sin).mp h
    cases i with
    | enc n | dec b => rfl
    | wrap | strip | encodeFrame | decodeFrame => cases hw

/-- R165: no operation that may take its stream operand ends with IllegalOperation. -/
theorem operationResult_ne_illegal {i : Instr} {sin : Bits} (h : WellFormed i sin = true) (w : GroupWidth)
    (m : FlipMap) : (operationResult w m sin i).status ≠ .error .illegalOperation := by
  cases i with
  | enc n | dec b =>
    have hs : sin = [] := List.isEmpty_iff.mp h
    simp [operationResult, hs]
  | wrap => simp [operationResult]
  | strip =>
    simp only [operationResult]
    cases regionOf sin <;> simp
  | encodeFrame =>
    simp only [operationResult]
    split <;> simp
  | decodeFrame =>
    simp only [operationResult]
    cases regionOf sin with
    | none => simp
    | some region =>
      simp only [Option.elim_some]
      split <;> simp

/-- Settles O4: `illegalCommand` is the disjunction of the clauses; an illegal command is answered before anything else is
looked at, and a legal one is performed by an operation that may take its stream operand. -/
theorem illegalCommandsAreExactlyR64 : Obligations.IllegalCommandsAreExactlyR64 := by
  intro s cmd sin rest hm op illegal
  have hiff : illegalCommand cmd sin = true ↔ illegal := illegalCommand_iff cmd sin
  refine ⟨fun h => ?illegal, fun h => ?legal⟩
  case illegal =>
    rw [step_of_issue_eq hm, commandOverlong_of_illegal (hiff.mpr h), commandResult_of_illegal (hiff.mpr h)]
    rfl
  case legal =>
    obtain ⟨i, hd, hw⟩ := (illegalCommand_eq_false_iff cmd sin).mp (Bool.eq_false_iff.mpr (mt hiff.mp h))
    refine ⟨⟨i, hd, hw⟩, fun t r hs hr => ?_⟩
    have hres : commandResult s.params.width s.params.flipMap cmd sin = r :=
      Option.some.inj ((step_of_issue_result hm hs).symm.trans hr)
    rw [← hres, commandResult, hd]
    exact operationResult_ne_illegal hw _ _

end Sys2Proof.Machine
end

section
/-! PROOF. How nibbles stand in a payload and code words in groups (spec R68, R69). -/

namespace Sys2Proof.Machine

/-- R14: sequences of one length differ in value. -/
theorem eq_of_deser_eq {S T : Bits} (hl : S.length = T.length) (h : deser S = deser T) : S = T := by
  induction S generalizing T with
  | nil => exact (List.length_eq_zero_iff.mp hl.symm).symm
  | cons b S ih =>
    cases T with
    | nil => cases hl
    | cons c T =>
      have hlen : S.length = T.length := Nat.succ.inj hl
      have hS := deser_lt S
      have hT := deser_lt T
      rw [deser_cons, deser_cons, hlen] at h
      rw [hlen] at hS
      cases b <;> cases c <;> simp only [Bool.toNat_true, Bool.toNat_false] at h
      · rw [ih hlen (by omega)]
      · omega
      · omega
      · rw [ih hlen (by omega)]

/-- R14: a word at least as wide as a sequence holds the sequence's value. -/
theorem toNat_ofNat_deser {n : Nat} {g : Bits} (h : g.length ≤ n) : (BitVec.ofNat n (deser g)).toNat = deser g := by
  rw [BitVec.toNat_ofNat]
  exact Nat.mod_eq_of_lt ((deser_lt g).trans_le (Nat.pow_le_pow_right (by decide) h))

/-- R14: reading a sequence and sending its value gives the sequence back. -/
theorem ser_ofNat_deser {n k : Nat} {g : Bits} (hk : g.length = k) (hn : k ≤ n) :
    ser k (BitVec.ofNat n (deser g)) = g := by
  subst hk
  apply eq_of_deser_eq (ser_length _ _)
  rw [deser_ser_eq_mod, toNat_ofNat_deser hn, Nat.mod_eq_of_lt (deser_lt g)]

/-- R42: a function that keeps each group keeps a sequence of whole groups. -/
theorem flatMap_chunks {size count : Nat} {bits : Bits} (h : bits.length = size * count) {f : Bits → Bits}
    (hf : ∀ g : Bits, g.length = size → f g = g) : (chunks size count bits).flatMap f = bits := by
  induction count generalizing bits with
  | zero => exact (List.length_eq_zero_iff.mp h).symm
  | succ count ih =>
    have htake : (bits.take size).length = size := List.length_take_of_le (h ▸ Nat.le_mul_of_pos_right _ count.succ_pos)
    have hdrop : (bits.drop size).length = size * count := by
      rw [List.length_drop, h, Nat.mul_succ, Nat.add_sub_cancel]
    rw [chunks_succ, List.flatMap_cons, hf _ htake, ih hdrop, List.take_append_drop]

/-- R68: nibble `i` of a payload. -/
theorem payloadNibbles_getElem? {P : Bits} {i : Nat} (h : i < P.length / 4) :
    (payloadNibbles P)[i]? = some (payloadNibble P i) := by
  simp [payloadNibbles, chunks_eq_map, h, payloadNibble]

/-- R68: the four bits of a payload that nibble `i` is sent as. -/
theorem ser_payloadNibble {P : Bits} {i : Nat} (h : 4 * i + 4 ≤ P.length) :
    ser 4 (payloadNibble P i) = (P.drop (4 * i)).take 4 :=
  ser_ofNat_deser (by rw [List.length_take, List.length_drop]; omega) (le_refl 4)

/-- R68: `P[4i+j]` is bit `3-j` of nibble `i`. -/
theorem payloadNibble_bit {P : Bits} {i j : Nat} (h : 4 * i + 4 ≤ P.length) (hj : j < 4) :
    P[4 * i + j]? = some ((payloadNibble P i).getLsbD (3 - j)) := by
  rw [← ser_getElem? _ hj, ser_payloadNibble h, List.getElem?_take_of_lt hj, List.getElem?_drop]

/-- R68: the nibbles of a payload of whole nibbles, sent again, are the payload. -/
theorem serNibbles_payloadNibbles {P : Bits} (h : P.length % 4 = 0) : serNibbles (payloadNibbles P) = P := by
  have hl : P.length = 4 * (P.length / 4) := by omega
  rw [serNibbles, payloadNibbles, List.flatMap_map]
  exact flatMap_chunks hl fun g hg => ser_ofNat_deser hg (le_refl 4)

/-- R69: a region of one group. -/
theorem regionWords_of_length {w : Nat} {g : Bits} (hw : 0 < w) (h : g.length = w) :
    regionWords w g = [BitVec.ofNat 8 (deser g)] := by
  subst h
  rw [regionWords, Nat.div_self hw, chunks_succ, chunks_zero, List.take_length]
  rfl

/-- R69: a code word sent in `w` bits and read back is its low `w` bits. -/
theorem regionWords_ser {w : Nat} (hw : 0 < w) (c : CodeWord) :
    regionWords w (ser w c) = [BitVec.ofNat 8 (c.toNat % 2 ^ w)] := by
  rw [regionWords_of_length hw (ser_length w c), deser_ser_eq_mod]

/-- Settles O35: a group is what its value is sent as, so a payload's nibbles carry its bits in order; a region of one
group is one word, whose value is below `2^W`. -/
theorem payloadAndGroupFormats : Obligations.PayloadAndGroupFormats := by
  refine ⟨fun P i h => ?nibble, fun P => serNibbles_payloadNibbles, fun c => ⟨rfl, rfl, ?send8, ?send7⟩,
    fun g => ⟨fun h => ?receive8, fun h => ?receive7⟩⟩
  case nibble =>
    exact ⟨payloadNibble P i, payloadNibbles_getElem? (by omega), payloadNibble_bit h (j := 0) (by decide),
      payloadNibble_bit h (by decide), payloadNibble_bit h (by decide), payloadNibble_bit h (by decide)⟩
  case send8 =>
    rw [regionWords_ser (by decide), Nat.mod_eq_of_lt c.isLt, BitVec.ofNat_toNat, BitVec.setWidth_eq]
  case send7 =>
    rw [regionWords_ser (by decide), ← Nat.and_two_pow_sub_one_eq_mod, BitVec.ofNat_and, BitVec.ofNat_toNat,
      BitVec.setWidth_eq]
  case receive8 => exact ⟨_, regionWords_of_length (by decide) h, toNat_ofNat_deser h.le⟩
  case receive7 =>
    have hv := toNat_ofNat_deser (n := 8) (h.le.trans (by decide))
    refine ⟨_, regionWords_of_length (by decide) h, hv, ?_⟩
    rw [BitVec.getLsbD, hv]
    exact Nat.testBit_lt_two_pow (h ▸ deser_lt g)

end Sys2Proof.Machine
end

section
/-! SUPPORT. The code word bit by bit, the checks on it, and the linearity and the weights of the code (spec R66, R80 to R83,
R100). -/

namespace Sys2Proof.Machine

theorem answersEnc_of_noStream {s : State} (h : s.sin = []) (n : Nibble) : answersEnc n s (hammingEncode n) :=
  requireNoStream_of_empty h _

theorem answersError_enc_of_stream {s : State} (h : s.sin ≠ []) (n : Nibble) :
    answersError (.enc n) s .illegalOperation :=
  requireNoStream_of_stream h _

/-- R83(a): the code word carries the nibble in its low four bits. -/
theorem hammingEncode_extractLsb' (n : Nibble) : (hammingEncode n).extractLsb' 0 4 = n :=
  BitVec.extractLsb'_append_eq_right

theorem hammingEncode_getLsbD_data (n : Nibble) {i : Nat} (h : i < 4) : (hammingEncode n).getLsbD i = n.getLsbD i := by
  rw [hammingEncode, BitVec.getLsbD_append, if_pos h]

theorem hammingEncode_getLsbD_four (n : Nibble) :
    (hammingEncode n).getLsbD 4 = (n.getLsbD 1 ^^ n.getLsbD 2 ^^ n.getLsbD 3) := by
  simp only [hammingEncode, BitVec.getLsbD_append, BitVec.getLsbD_ofBool]
  simp

theorem hammingEncode_getLsbD_five (n : Nibble) :
    (hammingEncode n).getLsbD 5 = (n.getLsbD 0 ^^ n.getLsbD 2 ^^ n.getLsbD 3) := by
  simp only [hammingEncode, BitVec.getLsbD_append, BitVec.getLsbD_ofBool]
  simp

theorem hammingEncode_getLsbD_six (n : Nibble) :
    (hammingEncode n).getLsbD 6 = (n.getLsbD 0 ^^ n.getLsbD 1 ^^ n.getLsbD 3) := by
  simp only [hammingEncode, BitVec.getLsbD_append, BitVec.getLsbD_ofBool]
  simp

/-- R80: `d0`, `d1` and `d2` each stand in an odd number of the bits 0 to 6, and `d3` in an even number. -/
theorem hammingEncode_getLsbD_seven (n : Nibble) :
    (hammingEncode n).getLsbD 7 = (n.getLsbD 0 ^^ n.getLsbD 1 ^^ n.getLsbD 2) := by
  simp only [hammingEncode, BitVec.getLsbD_append, BitVec.getLsbD_ofBool, parity_cons, parity_nil]
  simp [Bool.xor_comm, Bool.xor_left_comm, -BitVec.getLsbD_eq_getElem]

theorem parityOfLowSeven_eq_parity (v : CodeWord) :
    parityOfLowSeven v = parity (bitsAt v [0, 1, 2, 3, 4, 5, 6]) := by
  simp [parityOfLowSeven]

/-- R66: bit 7 of a code word is its overall parity. -/
theorem hammingEncode_getLsbD_seven_eq_parity (n : Nibble) :
    (hammingEncode n).getLsbD 7 = parityOfLowSeven (hammingEncode n) := by
  rw [parityOfLowSeven_eq_parity]
  simp only [hammingEncode, BitVec.getLsbD_append, BitVec.getLsbD_ofBool, bitsAt_cons, bitsAt_nil]
  simp

/-- The number of bits that are 1 is odd exactly when their exclusive-or is 1. -/
theorem countP_mod_two {α : Type} (p : α → Bit) (l : List α) : l.countP p % 2 = (parity (l.map p)).toNat := by
  induction l with
  | nil => rfl
  | cons a l ih =>
    rw [List.countP_cons, List.map_cons, parity_cons, Nat.add_mod, ih]
    cases p a <;> cases parity (l.map p) <;> rfl

/-- R66: the weight is even exactly when bit 7 is the parity of the bits below it. -/
theorem weight_mod_two (v : CodeWord) : weight v % 2 = (parityOfLowSeven v ^^ v.getLsbD 7).toNat := by
  rw [weight, countP_mod_two]
  simp [parityOfLowSeven, List.range_succ]

/-- R80: "every code word has an even number of ones". -/
theorem weight_hammingEncode_mod_two (n : Nibble) : weight (hammingEncode n) % 2 = 0 := by
  rw [weight_mod_two, hammingEncode_getLsbD_seven_eq_parity, Bool.xor_self, Bool.toNat_false]

theorem check0_eq (b : CodeWord) : check0 b = (b.getLsbD 4 ^^ (b.getLsbD 1 ^^ b.getLsbD 2 ^^ b.getLsbD 3)) := by
  rw [Bool.xor_comm]
  simp [check0]

theorem check1_eq (b : CodeWord) : check1 b = (b.getLsbD 5 ^^ (b.getLsbD 0 ^^ b.getLsbD 2 ^^ b.getLsbD 3)) := by
  rw [Bool.xor_comm]
  simp [check1]

theorem check2_eq (b : CodeWord) : check2 b = (b.getLsbD 6 ^^ (b.getLsbD 0 ^^ b.getLsbD 1 ^^ b.getLsbD 3)) := by
  rw [Bool.xor_comm]
  simp [check2]

@[simp] theorem check0_hammingEncode (n : Nibble) : check0 (hammingEncode n) = false := by
  rw [check0_eq, hammingEncode_getLsbD_four]
  simp only [hammingEncode_getLsbD_data, Nat.reduceLT, Bool.xor_self]

@[simp] theorem check1_hammingEncode (n : Nibble) : check1 (hammingEncode n) = false := by
  rw [check1_eq, hammingEncode_getLsbD_five]
  simp only [hammingEncode_getLsbD_data, Nat.reduceLT, Bool.xor_self]

@[simp] theorem check2_hammingEncode (n : Nibble) : check2 (hammingEncode n) = false := by
  rw [check2_eq, hammingEncode_getLsbD_six]
  simp only [hammingEncode_getLsbD_data, Nat.reduceLT, Bool.xor_self]

/-- R83(c): every bit of the code word is an exclusive-or of bits of the nibble. -/
theorem hammingEncode_xor (n m : Nibble) : hammingEncode (n ^^^ m) = hammingEncode n ^^^ hammingEncode m := by
  apply BitVec.eq_of_getLsbD_eq
  intro i hi
  rw [BitVec.getLsbD_xor]
  obtain h | rfl | rfl | rfl | rfl : i < 4 ∨ i = 4 ∨ i = 5 ∨ i = 6 ∨ i = 7 := by omega
  · simp only [hammingEncode_getLsbD_data, h, BitVec.getLsbD_xor]
  · simp only [hammingEncode_getLsbD_four, BitVec.getLsbD_xor, Bool.xor_assoc, Bool.xor_left_comm]
  · simp only [hammingEncode_getLsbD_five, BitVec.getLsbD_xor, Bool.xor_assoc, Bool.xor_left_comm]
  · simp only [hammingEncode_getLsbD_six, BitVec.getLsbD_xor, Bool.xor_assoc, Bool.xor_left_comm]
  · simp only [hammingEncode_getLsbD_seven, BitVec.getLsbD_xor, Bool.xor_assoc, Bool.xor_left_comm]

/-- R83(a): the nibble can be read off its code word. -/
theorem hammingEncode_injective : Function.Injective hammingEncode := by
  intro n m h
  rw [← hammingEncode_extractLsb' n, h, hammingEncode_extractLsb']

/-- R81: the weights of the sixteen code words. -/
theorem weight_hammingEncode (n : Nibble) :
    weight (hammingEncode n) = if n = 0#4 then 0 else if n = 15#4 then 8 else 4 := by
  revert n
  decide

/-- R81: the code words of a weight other than 0 and 8. -/
theorem weight_hammingEncode_eq_four {n : Nibble} (h0 : n ≠ 0#4) (h15 : n ≠ 15#4) : weight (hammingEncode n) = 4 := by
  rw [weight_hammingEncode, if_neg h0, if_neg h15]

/-- R83(b): the code is linear, so its distances are the weights of its nonzero words. -/
theorem four_le_weight_hammingEncode_xor {n m : Nibble} (h : n ≠ m) :
    4 ≤ weight (hammingEncode n ^^^ hammingEncode m) := by
  rw [← hammingEncode_xor, weight_hammingEncode, if_neg (mt BitVec.xor_eq_zero_iff.mp h)]
  split <;> decide

theorem hammingEncode_fifteen : hammingEncode 15#4 = 0xFF#8 := by decide

/-- R83(d): subtracting from 15 complements the nibble, and the code word of 15 is all ones. -/
theorem hammingEncode_fifteen_sub (n : Nibble) : hammingEncode (15#4 - n) = hammingEncode n ^^^ 0xFF#8 := by
  have hsub : 15#4 - n = n ^^^ 15#4 := (BitVec.allOnes_sub_eq_not n).trans BitVec.xor_allOnes.symm
  rw [hsub, hammingEncode_xor, hammingEncode_fifteen]

/-- R60: the low byte of a command word is RSV and OP. -/
theorem rsvField_opField_of_low_zero {cmd : CmdWord} (h : cmd.extractLsb' 0 8 = 0#8) :
    rsvField cmd = 0#5 ∧ opField cmd = 0#3 := by
  simp only [opField, rsvField, ← BitVec.toNat_inj, BitVec.extractLsb'_toNat, BitVec.toNat_ofNat,
    Nat.shiftRight_eq_div_pow] at *
  omega

/-- R81: the command words of ENC. -/
theorem decode_of_enc_fields {cmd : CmdWord} (hlow : cmd.extractLsb' 0 8 = 0#8) (hupper : cmd.extractLsb' 12 4 = 0#4) :
    decode cmd = .ok (.enc (cmd.extractLsb' 8 4)) := by
  obtain ⟨hrsv, hop⟩ := rsvField_opField_of_low_zero hlow
  exact decode_eq_ok_iff.mpr ⟨hrsv, hop, (opdField_eq_setWidth_iff cmd _).mpr ⟨hupper, rfl⟩⟩

/-- R81: what a command word of ENC answers when no stream comes with it. -/
theorem step_of_enc_command {s : State} {cmd : CmdWord} {rest : List HostMove} (hm : s.moves = .issue cmd [] :: rest)
    (hlow : cmd.extractLsb' 0 8 = 0#8) (hupper : cmd.extractLsb' 12 4 = 0#4) :
    step s = .next (((s.hostGoesOn rest).present cmd []).give (.ofEnc (hammingEncode (cmd.extractLsb' 8 4)))) := by
  have hd : decode ((s.hostGoesOn rest).present cmd []).cmd = .ok (.enc (cmd.extractLsb' 8 4)) :=
    decode_of_enc_fields hlow hupper
  rw [step_of_issue hm, performCommand_of_decoded hd]
  exact requireNoStream_of_empty (present_sin _ cmd []) _

end Sys2Proof.Machine
end

section
/-! PROOF. The operation ENC and the code it answers (spec R80 to R83). -/

namespace Sys2Proof.Machine

/-- Settles O21: ENC answers `hammingEncode n`, whose bits are the nibble and the four parities. -/
theorem encAnswersTheCodeWord : Obligations.EncAnswersTheCodeWord := by
  intro n s h
  have hdata : ∀ {i : Nat}, i < 4 → (hammingEncode n).getLsbD i = n.getLsbD i := hammingEncode_getLsbD_data n
  exact ⟨hammingEncode n, answersEnc_of_noStream h n,
    hdata (by decide), hdata (by decide), hdata (by decide), hdata (by decide),
    hammingEncode_getLsbD_four n, hammingEncode_getLsbD_five n, hammingEncode_getLsbD_six n,
    hammingEncode_getLsbD_seven_eq_parity n, weight_hammingEncode_mod_two n⟩

/-- Settles O22: the command word decodes to ENC of its nibble field, ENC answers unless there is a stream operand, and the
corner cases are read off the sixteen code words. -/
theorem encCommandAndCornerCases : Obligations.EncCommandAndCornerCases :=
  ⟨fun _ _ _ => step_of_enc_command, fun n _ h => answersError_enc_of_stream h n, by decide, hammingEncode_fifteen,
    by decide, fun _ => weight_hammingEncode_eq_four, by decide⟩

/-- Settles O24: the code is `hammingEncode`; the distances follow from its linearity and the weights of its words. -/
theorem codeIsLinearWithDistanceFour : Obligations.CodeIsLinearWithDistanceFour := by
  intro s h
  exact ⟨hammingEncode, answersEnc_of_noStream h, fun _ _ h => hammingEncode_injective h, hammingEncode_extractLsb',
    fun _ _ => four_le_weight_hammingEncode_xor, ⟨0#4, 1#4, by decide, by decide⟩, hammingEncode_xor,
    hammingEncode_fifteen_sub⟩

/-- Settles O23: a check is a parity bit and the data bits it covers, which on a code word cancel. -/
theorem codeWordsPassEveryCheck : Obligations.CodeWordsPassEveryCheck :=
  ⟨fun n => ⟨check0_hammingEncode n, check1_hammingEncode n, check2_hammingEncode n,
    hammingEncode_getLsbD_seven_eq_parity n⟩, fun b => ⟨check0_eq b, check1_eq b, check2_eq b⟩⟩

end Sys2Proof.Machine
end

section
/-! SUPPORT. The syndrome bit by bit, its linearity, and the columns of the bit positions (spec R100 to R105). -/

namespace Sys2Proof.Machine

theorem parity_bitsAt_xor (x y : CodeWord) (ps : List Nat) :
    parity (bitsAt (x ^^^ y) ps) = (parity (bitsAt x ps) ^^ parity (bitsAt y ps)) := by
  induction ps with
  | nil => rfl
  | cons p ps ih =>
    simp only [bitsAt_cons, parity_cons, ih, BitVec.getLsbD_xor, Bool.xor_assoc, Bool.xor_left_comm]

/-- R101: the places of the three checks in the syndrome. -/
theorem syndrome_bits (b : CodeWord) :
    (syndrome b).getLsbD 2 = check0 b ∧ (syndrome b).getLsbD 1 = check1 b ∧ (syndrome b).getLsbD 0 = check2 b := by
  simp only [syndrome, BitVec.getLsbD_append]
  simp

/-- R102: each check is an exclusive-or of bits. -/
theorem syndrome_xor (x y : CodeWord) : syndrome (x ^^^ y) = syndrome x ^^^ syndrome y := by
  simp only [syndrome, check0, check1, check2, parity_bitsAt_xor, ← BitVec.ofBool_xor_ofBool, ← BitVec.xor_append]

@[simp] theorem syndrome_hammingEncode (n : Nibble) : syndrome (hammingEncode n) = 0#3 := by
  rw [syndrome, check0_hammingEncode, check1_hammingEncode, check2_hammingEncode]
  rfl

/-- R102: the syndrome of a received word is that of its error pattern. -/
@[simp] theorem syndrome_hammingEncode_xor (n : Nibble) (e : CodeWord) :
    syndrome (hammingEncode n ^^^ e) = syndrome e := by
  rw [syndrome_xor, syndrome_hammingEncode, BitVec.zero_xor]

theorem syndrome_foldr_xor (l : List CodeWord) :
    syndrome (l.foldr (· ^^^ ·) 0#8) = (l.map syndrome).foldr (· ^^^ ·) 0#3 := by
  induction l with
  | nil => rfl
  | cons x l ih => rw [List.foldr_cons, syndrome_xor, ih, List.map_cons, List.foldr_cons]

/-- Exclusive-or of single bits at different positions sets those positions. -/
theorem getLsbD_foldr_xor_bits {l : List Nat} (hl : l.Nodup) {i : Nat} (hi : i < 8) :
    ((l.map fun k => 1#8 <<< k).foldr (· ^^^ ·) 0#8).getLsbD i = decide (i ∈ l) := by
  induction l with
  | nil => simp
  | cons k l ih =>
    obtain ⟨hk, hl⟩ := List.nodup_cons.mp hl
    rw [List.map_cons, List.foldr_cons, BitVec.getLsbD_xor, ih hl, ← BitVec.twoPow_eq, BitVec.getLsbD_twoPow]
    by_cases h : k = i
    · subst h
      simp [hk, hi]
    · simp [h, Ne.symm h]

/-- A word is the exclusive-or of its bits. -/
theorem foldr_xor_bits (e : CodeWord) :
    (((List.range 8).filter fun k => e.getLsbD k).map fun k => 1#8 <<< k).foldr (· ^^^ ·) 0#8 = e := by
  apply BitVec.eq_of_getLsbD_eq
  intro i hi
  rw [getLsbD_foldr_xor_bits (List.nodup_range.filter _) hi]
  simp [hi, -BitVec.getLsbD_eq_getElem]

/-- R103, R104: the bit that COLUMN names for a nonzero syndrome is in 0..6 and has that syndrome as its column. -/
theorem columnFlip_spec {v : Syndrome} (h : v ≠ 0#3) : columnFlip v < 7 ∧ syndrome (1#8 <<< columnFlip v) = v := by
  revert v
  decide

/-- R103, R104: the columns of bits 0 to 6 are nonzero, and COLUMN names the bit back, so no two are the same. -/
theorem syndrome_column {k : Nat} (h : k < 7) : syndrome (1#8 <<< k) ≠ 0#3 ∧ columnFlip (syndrome (1#8 <<< k)) = k := by
  revert k
  decide

theorem flipPosition_lt (m : FlipMap) (v : Syndrome) : flipPosition m v < 8 := by
  cases m with
  | shift => exact v.isLt
  | column =>
    revert v
    decide

theorem errorFlag_eq_true_iff (b : CodeWord) : errorFlag b = true ↔ syndrome b ≠ 0#3 := bne_iff_ne

theorem errorFlag_eq_false_iff (b : CodeWord) : errorFlag b = false ↔ syndrome b = 0#3 := bne_eq_false_iff_eq

theorem errorFlag_hammingEncode_xor (n : Nibble) (e : CodeWord) : errorFlag (hammingEncode n ^^^ e) = errorFlag e := by
  rw [errorFlag, syndrome_hammingEncode_xor, errorFlag]

/-- R104: the rule's table. -/
theorem columnFlip_mem_table {v : Syndrome} (h : v ≠ 0#3) :
    (v.toNat, columnFlip v) ∈ [(1, 6), (2, 5), (3, 0), (4, 4), (5, 1), (6, 2), (7, 3)] := by
  revert v
  decide

end Sys2Proof.Machine
end

section
/-! SUPPORT. The word after the flip, and the two terms of the count (spec R104 to R109). -/

namespace Sys2Proof.Machine

theorem one_shiftLeft_ne_zero {k : Nat} (h : k < 8) : 1#8 <<< k ≠ 0#8 := by
  revert k
  decide

/-- Mathlib's lemma, with the zero word in the form in which words are written here. -/
theorem xor_eq_left_iff_eq_zero {w : Nat} (x y : BitVec w) : x ^^^ y = x ↔ y = 0#w := xor_left_eq_self_iff

/-- R108: a flip changes the word. -/
theorem correct_eq_self_iff (m : FlipMap) (b : CodeWord) : correct m b = b ↔ syndrome b = 0#3 := by
  refine ⟨fun h => ?_, correct_of_zero⟩
  by_contra hs
  rw [correct_of_nonzero hs, xor_eq_left_iff_eq_zero] at h
  exact one_shiftLeft_ne_zero (flipPosition_lt m _) h

/-- R104: under COLUMN the flip brings the syndrome to 0. -/
theorem syndrome_correct_column (b : CodeWord) : syndrome (correct .column b) = 0#3 := by
  by_cases h : syndrome b = 0#3
  · rw [correct_of_zero h, h]
  · obtain ⟨-, hcol⟩ := columnFlip_spec h
    rw [correct_of_nonzero h, syndrome_xor, flipPosition, hcol, BitVec.xor_self]

/-- R104: "Under this map bit 7 is never flipped." -/
theorem correct_column_getLsbD_seven (b : CodeWord) : (correct .column b).getLsbD 7 = b.getLsbD 7 := by
  by_cases h : syndrome b = 0#3
  · rw [correct_of_zero h]
  · obtain ⟨hlt, -⟩ := columnFlip_spec h
    rw [correct_of_nonzero h, BitVec.getLsbD_xor, flipPosition, ← BitVec.twoPow_eq, BitVec.getLsbD_twoPow]
    simp [hlt.ne]

/-- R104: COLUMN undoes a single flip in bits 0 to 6. -/
theorem correct_column_bit {k : Nat} (h : k < 7) : correct .column (1#8 <<< k) = 0#8 := by
  obtain ⟨hne, hflip⟩ := syndrome_column h
  rw [correct_of_nonzero hne, flipPosition, hflip, BitVec.xor_self]

/-- R105: SHIFT undoes a single flip in bits 0 to 6 only at bit 4, in the word and in the nibble. -/
theorem correct_shift_bit_eq_zero_iff {k : Nat} (h : k < 7) :
    (correct .shift (1#8 <<< k) = 0#8 ↔ k = 4) ∧ ((correct .shift (1#8 <<< k)).setWidth 4 = 0#4 ↔ k = 4) := by
  revert k
  decide

theorem correct_shift_of_seven {b : CodeWord} (h : syndrome b = 7#3) : correct .shift b = b ^^^ 0x80#8 := by
  rw [correct_of_nonzero (by rw [h]; decide), h]
  rfl

/-- R111: what SHIFT makes of the patterns with one of bits 0 to 6. -/
theorem correct_shift_table : ∀ p ∈ [(0, 3, 9), (1, 5, 2), (2, 6, 4), (3, 7, 8), (4, 4, 0), (5, 2, 4), (6, 1, 2)],
    correct .shift (1#8 <<< p.1) = 1#8 <<< p.1 ^^^ 1#8 <<< p.2.1 ∧
      (correct .shift (1#8 <<< p.1)).setWidth 4 = BitVec.ofNat 4 p.2.2 ∧ errorFlag (1#8 <<< p.1) = true ∧ p.1 < 8 := by
  decide

/-- R102: DECU sees only the error pattern, so it does to a received word what it does to the pattern. -/
theorem correct_hammingEncode_xor (m : FlipMap) (n : Nibble) (e : CodeWord) :
    correct m (hammingEncode n ^^^ e) = hammingEncode n ^^^ correct m e := by
  by_cases h : syndrome e = 0#3
  · rw [correct_of_zero h, correct_of_zero (by rwa [syndrome_hammingEncode_xor])]
  · rw [correct_of_nonzero h, correct_of_nonzero (by rwa [syndrome_hammingEncode_xor]), syndrome_hammingEncode_xor,
      BitVec.xor_assoc]

theorem parityFails_eq (v : CodeWord) : parityFails v = (parityOfLowSeven v ^^ v.getLsbD 7) := by
  rw [parityOfLowSeven_eq_parity, parityFails, Bool.bne_eq_xor]

/-- R106: the check fails exactly on the words of odd weight. -/
theorem parityFails_toNat (v : CodeWord) : (parityFails v).toNat = weight v % 2 := by
  rw [parityFails_eq, weight_mod_two]

theorem parityFails_xor (x y : CodeWord) : parityFails (x ^^^ y) = (parityFails x ^^ parityFails y) := by
  simp only [parityFails_eq, parityOfLowSeven_eq_parity, parity_bitsAt_xor, BitVec.getLsbD_xor, Bool.xor_assoc,
    Bool.xor_left_comm]

theorem parityFails_bit {k : Nat} (h : k < 8) : parityFails (1#8 <<< k) = true := by
  revert k
  decide

@[simp] theorem parityFails_hammingEncode (n : Nibble) : parityFails (hammingEncode n) = false := by
  rw [parityFails_eq, hammingEncode_getLsbD_seven_eq_parity, Bool.xor_self]

/-- R106: a flip, of whichever bit, turns the overall parity check over. -/
theorem parityFails_correct (m : FlipMap) (b : CodeWord) :
    parityFails (correct m b) = (parityFails b ^^ errorFlag b) := by
  by_cases h : syndrome b = 0#3
  · rw [correct_of_zero h, (errorFlag_eq_false_iff b).mpr h, Bool.xor_false]
  · rw [correct_of_nonzero h, parityFails_xor, parityFails_bit (flipPosition_lt m _), (errorFlag_eq_true_iff b).mpr h]

/-- R106, R109: the count in the form of the pseudocode. -/
theorem correctionCount_toNat_eq_ite (m : FlipMap) (b : CodeWord) :
    (correctionCount m b).toNat = (if errorFlag b then 1 else 0) +
      (if parityOfLowSeven (correct m b) ≠ (correct m b).getLsbD 7 then 1 else 0) := by
  rw [correctionCount_toNat, parityFails, ← parityOfLowSeven_eq_parity]
  simp only [Bool.toNat, Bool.cond_eq_ite, bne_iff_ne]

/-- R109: the count under either map: a word of odd weight gives 1, whether or not a bit was flipped, and a word of even
weight 2 for a flip and 0 without one. -/
theorem correctionCount_eq (m : FlipMap) (b : CodeWord) :
    correctionCount m b = if weight b % 2 = 1 then 1#2 else if errorFlag b then 2#2 else 0#2 := by
  rw [← parityFails_toNat, correctionCount, parityFails_correct]
  cases parityFails b <;> cases errorFlag b <;> rfl

theorem correctionCount_of_odd {b : CodeWord} (h : weight b % 2 = 1) (m : FlipMap) : correctionCount m b = 1#2 := by
  rw [correctionCount_eq, if_pos h]

theorem correctionCount_of_even {b : CodeWord} (h : weight b % 2 = 0) (he : errorFlag b = true) (m : FlipMap) :
    correctionCount m b = 2#2 := by
  rw [correctionCount_eq, if_neg (by omega), if_pos he]

theorem correctionCount_zero (m : FlipMap) : correctionCount m 0#8 = 0#2 := correctionCount_eq m 0#8

theorem weight_bit_odd {k : Nat} (h : k < 8) : weight (1#8 <<< k) % 2 = 1 := by
  rw [← parityFails_toNat, parityFails_bit h, Bool.toNat_true]

theorem correctionCount_hammingEncode_xor (m : FlipMap) (n : Nibble) (e : CodeWord) :
    correctionCount m (hammingEncode n ^^^ e) = correctionCount m e := by
  simp only [correctionCount, parityFails_correct, parityFails_xor, parityFails_hammingEncode, Bool.false_xor,
    errorFlag_hammingEncode_xor]

end Sys2Proof.Machine
end

section
/-! SUPPORT. What DEC answers, in general and for a code word with an error pattern (spec R102, R107). -/

namespace Sys2Proof.Machine

theorem setWidth_eight_eq_append (n : Nibble) : n.setWidth 8 = 0#4 ++ n :=
  BitVec.setWidth_eq_append (by decide)

/-- R107: DEC answers what `Decode` gives. -/
theorem answersDec_of_noStream {s : State} (h : s.sin = []) (b : CodeWord) :
    answersDec b s (hammingDecode s.params.flipMap b).nibble (hammingDecode s.params.flipMap b).diag := by
  rw [answersDec, ← setWidth_eight_eq_append]
  exact requireNoStream_of_empty h _

theorem answersError_dec_of_stream {s : State} (h : s.sin ≠ []) (b : CodeWord) :
    answersError (.dec b) s .illegalOperation :=
  requireNoStream_of_stream h _

/-- R107: the command word of DEC. -/
theorem decode_of_dec_word (b : CodeWord) : decode (b ++ 0x01#8) = .ok (.dec b) := by
  have hword : b ++ 0x01#8 = encode (.dec b) :=
    BitVec.append_assoc' (x₁ := b) (x₂ := 0#5) (x₃ := 1#3)
  obtain ⟨hop, hrsv, hopd⟩ := Laws.FieldsOfTheWord.dec b
  rw [hword]
  exact decode_eq_ok_iff.mpr ⟨hrsv, hop, hopd⟩

/-- R107: what a command word of DEC answers when no stream comes with it. -/
theorem step_of_dec_command {s : State} {b : CodeWord} {rest : List HostMove}
    (hm : s.moves = .issue (b ++ 0x01#8) [] :: rest) :
    step s = .next (((s.hostGoesOn rest).present (b ++ 0x01#8) []).give
      (.ofDec (hammingDecode s.params.flipMap b))) := by
  have hd : decode ((s.hostGoesOn rest).present (b ++ 0x01#8) []).cmd = .ok (.dec b) := decode_of_dec_word b
  rw [step_of_issue hm, performCommand_of_decoded hd]
  exact requireNoStream_of_empty (present_sin _ _ []) _

/-- R107: `nibble = word[3:0]`. -/
theorem hammingDecode_nibble_eq_extractLsb' (m : FlipMap) (b : CodeWord) :
    (hammingDecode m b).nibble = (hammingDecode m b).diag.word.extractLsb' 0 4 :=
  BitVec.setWidth_eq_extractLsb' (x := correct m b) (by decide)

theorem setWidth_hammingEncode (n : Nibble) : (hammingEncode n).setWidth 4 = n := hammingEncode_extractLsb' n

/-- R102: `Decode` of a received word from its error pattern alone: the nibble and the word are the sent ones with what is
left of the pattern after the flip, and the other fields are the pattern's. -/
theorem hammingDecode_hammingEncode_xor (m : FlipMap) (n : Nibble) (e : CodeWord) :
    hammingDecode m (hammingEncode n ^^^ e) =
      { nibble := n ^^^ (correct m e).setWidth 4
        diag :=
          { error := errorFlag e
            count := correctionCount m e
            syndrome := syndrome e
            word := hammingEncode n ^^^ correct m e } } := by
  rw [hammingDecode, correct_hammingEncode_xor, correctionCount_hammingEncode_xor, errorFlag_hammingEncode_xor,
    syndrome_hammingEncode_xor, BitVec.setWidth_xor, setWidth_hammingEncode]

/-- R107: a code word is received as it is. -/
theorem hammingDecode_hammingEncode (m : FlipMap) (n : Nibble) :
    hammingDecode m (hammingEncode n) =
      { nibble := n, diag := { error := false, count := 0#2, syndrome := 0#3, word := hammingEncode n } } := by
  have hdec := hammingDecode_hammingEncode_xor m n 0#8
  rwa [correct_of_zero rfl, correctionCount_zero, BitVec.setWidth_zero, BitVec.xor_zero, BitVec.xor_zero] at hdec

/-- R107: with only bit 7 wrong nothing is flipped, and the overall parity check fails. -/
theorem hammingDecode_hammingEncode_bit7 (m : FlipMap) (n : Nibble) :
    hammingDecode m (hammingEncode n ^^^ 0x80#8) =
      { nibble := n
        diag := { error := false, count := 1#2, syndrome := 0#3, word := hammingEncode n ^^^ 0x80#8 } } := by
  have hnibble : (0x80#8).setWidth 4 = 0#4 := rfl
  have hdec := hammingDecode_hammingEncode_xor m n 0x80#8
  rwa [correct_of_zero (by decide), correctionCount_of_odd (by decide), hnibble, BitVec.xor_zero] at hdec

theorem answersDec_hammingEncode_xor {s : State} {m : FlipMap} (h : s.sin = []) (hm : s.params.flipMap = m) (n : Nibble)
    (e : CodeWord) :
    answersDec (hammingEncode n ^^^ e) s (n ^^^ (correct m e).setWidth 4)
      { error := errorFlag e, count := correctionCount m e, syndrome := syndrome e,
        word := hammingEncode n ^^^ correct m e } := by
  have hans := answersDec_of_noStream h (hammingEncode n ^^^ e)
  rwa [hammingDecode_hammingEncode_xor, hm] at hans

end Sys2Proof.Machine
end

section
/-! SUPPORT. How many of bits 0 to 6 an error pattern has, and what DEC makes of it for that: the words of syndrome 0
differ from 0 in none of these bits or in three or more (spec R82, R83, R110). -/

namespace Sys2Proof.Machine

/-- The number of bits 0 to 6 that are 1: the bits that the syndrome sees. -/
def lowWeight (v : CodeWord) : Nat :=
  (List.range 7).countP fun i => v.getLsbD i

theorem weight_eq_lowWeight_add (v : CodeWord) : weight v = lowWeight v + (v.getLsbD 7).toNat := by
  rw [weight, lowWeight, List.range_succ (n := 7), List.countP_append, List.countP_singleton]
  cases v.getLsbD 7 <;> rfl

theorem lowWeight_eq_weight {v : CodeWord} (h : v.getLsbD 7 = false) : lowWeight v = weight v := by
  rw [weight_eq_lowWeight_add, h]
  rfl

theorem lowWeight_eq_zero_iff (v : CodeWord) : lowWeight v = 0 ↔ ∀ i < 7, v.getLsbD i = false := by
  simp [lowWeight, List.countP_eq_zero]

theorem countP_xor_le {α : Type} (p q : α → Bit) (l : List α) :
    (l.countP fun a => p a ^^ q a) ≤ l.countP p + l.countP q := by
  induction l with
  | nil => simp
  | cons a l ih =>
    simp only [List.countP_cons]
    cases p a <;> cases q a <;> simp <;> omega

theorem lowWeight_xor_le (x y : CodeWord) : lowWeight (x ^^^ y) ≤ lowWeight x + lowWeight y := by
  simp only [lowWeight, BitVec.getLsbD_xor]
  exact countP_xor_le _ _ _

theorem lowWeight_bit_le {k : Nat} (h : k < 8) : lowWeight (1#8 <<< k) ≤ 1 := by
  revert k
  decide

theorem lowWeight_xor_bit {k : Nat} (h : k < 8) (v : CodeWord) :
    lowWeight (v ^^^ 1#8 <<< k) ≤ lowWeight v + 1 ∧ lowWeight v ≤ lowWeight (v ^^^ 1#8 <<< k) + 1 := by
  have hbit := lowWeight_bit_le h
  have hto := lowWeight_xor_le v (1#8 <<< k)
  have hback := lowWeight_xor_le (v ^^^ 1#8 <<< k) (1#8 <<< k)
  rw [xor_cancel_right] at hback
  omega

/-- A flip changes at most one of bits 0 to 6, either way. -/
theorem lowWeight_correct (m : FlipMap) (b : CodeWord) :
    lowWeight (correct m b) ≤ lowWeight b + 1 ∧ lowWeight b ≤ lowWeight (correct m b) + 1 := by
  by_cases h : syndrome b = 0#3
  · rw [correct_of_zero h]
    omega
  · rw [correct_of_nonzero h]
    exact lowWeight_xor_bit (flipPosition_lt m _) b

theorem lowWeight_eq_of_xor {x y : CodeWord} (h : lowWeight (x ^^^ y) = 0) : lowWeight x = lowWeight y := by
  rw [lowWeight_eq_zero_iff] at h
  refine List.countP_congr fun i hi => ?_
  have hbit := h i (List.mem_range.mp hi)
  rw [BitVec.getLsbD_xor, bne_eq_false_iff_eq] at hbit
  rw [hbit]

/-- R82: a check covers one parity bit, so a word of syndrome 0 whose nibble is 0 has none of bits 0 to 6. -/
theorem lowWeight_eq_zero_of_nibble_zero {c : CodeWord} (h : syndrome c = 0#3) (hn : c.setWidth 4 = 0#4) :
    lowWeight c = 0 := by
  have hdata : ∀ i < 4, c.getLsbD i = false := by
    intro i hi
    have hbit : (c.setWidth 4).getLsbD i = c.getLsbD i := by simp [hi]
    rw [← hbit, hn, BitVec.getLsbD_zero]
  obtain ⟨h4, h5, h6⟩ := syndrome_bits c
  rw [h, check0_eq, hdata 1 (by decide), hdata 2 (by decide), hdata 3 (by decide)] at h4
  rw [h, check1_eq, hdata 0 (by decide), hdata 2 (by decide), hdata 3 (by decide)] at h5
  rw [h, check2_eq, hdata 0 (by decide), hdata 1 (by decide), hdata 3 (by decide)] at h6
  rw [lowWeight_eq_zero_iff]
  intro i hi
  obtain hi | rfl | rfl | rfl : i < 4 ∨ i = 4 ∨ i = 5 ∨ i = 6 := by omega
  · exact hdata i hi
  · simpa using h4
  · simpa using h5
  · simpa using h6

/-- R83: the least distance of the code, seen in bits 0 to 6: a word of syndrome 0 agrees there with the code word of its
nibble, and a code word other than 0 has weight 4 or more. -/
theorem lowWeight_of_syndrome_zero {b : CodeWord} (h : syndrome b = 0#3) : lowWeight b = 0 ∨ 3 ≤ lowWeight b := by
  have hlow : lowWeight (hammingEncode (b.setWidth 4)) = lowWeight b := by
    apply lowWeight_eq_of_xor
    apply lowWeight_eq_zero_of_nibble_zero
    · rw [syndrome_hammingEncode_xor, h]
    · rw [BitVec.setWidth_xor, setWidth_hammingEncode, BitVec.xor_self]
  have hweight := weight_hammingEncode (b.setWidth 4)
  have hbit := Bool.toNat_le ((hammingEncode (b.setWidth 4)).getLsbD 7)
  rw [weight_eq_lowWeight_add, hlow] at hweight
  split_ifs at hweight <;> omega

/-- R110: one or two wrong bits in 0..6 never give syndrome 0. -/
theorem errorFlag_of_lowWeight {e : CodeWord} (h0 : lowWeight e ≠ 0) (h2 : lowWeight e ≤ 2) : errorFlag e = true := by
  rw [errorFlag_eq_true_iff]
  intro h
  have hdist := lowWeight_of_syndrome_zero h
  omega

/-- R110: COLUMN restores the nibble exactly when at most one of bits 0 to 6 was wrong: the flip leads to a word of
syndrome 0, at a distance of at most 1. -/
theorem setWidth_correct_column_eq_zero_iff (e : CodeWord) : (correct .column e).setWidth 4 = 0#4 ↔ lowWeight e ≤ 1 := by
  obtain ⟨hle, hge⟩ := lowWeight_correct .column e
  have hsyn := syndrome_correct_column e
  constructor
  · intro hn
    have hzero := lowWeight_eq_zero_of_nibble_zero hsyn hn
    omega
  · intro h1
    have hdist := lowWeight_of_syndrome_zero hsyn
    have hbits := (lowWeight_eq_zero_iff (correct .column e)).mp (by omega)
    apply BitVec.eq_of_getLsbD_eq
    intro i hi
    simp [hi, hbits i (by omega), -BitVec.getLsbD_eq_getElem]

/-- Bit 7 is the only pattern of weight 1 that the syndrome does not see. -/
theorem lowWeight_of_weight_one {e : CodeWord} (hw : weight e = 1) (he : e ≠ 0x80#8) : lowWeight e = 1 := by
  cases h7 : e.getLsbD 7 with
  | false => rw [lowWeight_eq_weight h7, hw]
  | true =>
    have hlow := weight_eq_lowWeight_add e
    rw [h7, Bool.toNat_true] at hlow
    have hbits := (lowWeight_eq_zero_iff e).mp (by omega)
    refine absurd (BitVec.eq_of_getLsbD_eq fun i hi => ?_) he
    obtain hi | rfl : i < 7 ∨ i = 7 := by omega
    · rw [hbits i hi]
      revert i
      decide
    · exact h7

/-- R110, R111: two wrong bits in 0..6 are detected under either map. -/
theorem detected_of_two_low {e : CodeWord} (hw : weight e = 2) (h7 : e.getLsbD 7 = false) (m : FlipMap) :
    errorFlag e = true ∧ correctionCount m e = 2#2 := by
  have hlow := lowWeight_eq_weight h7
  have he : errorFlag e = true := errorFlag_of_lowWeight (by omega) (by omega)
  exact ⟨he, correctionCount_of_even (by omega) he m⟩

end Sys2Proof.Machine
end

section
/-! PROOF. The operation DEC: its syndrome, its diagnostics and the flip maps (spec R100 to R109). -/

namespace Sys2Proof.Machine

/-- Settles O25: bit by bit the syndrome is the three checks. -/
theorem decAnswersTheSyndrome : Obligations.DecAnswersTheSyndrome := by
  intro b s h
  obtain ⟨h2, h1, h0⟩ := syndrome_bits b
  refine ⟨_, _, answersDec_of_noStream h b, ?_, ?_, ?_⟩
  · rw [hammingDecode_syndrome, h2, check0_eq, Bool.xor_comm]
  · rw [hammingDecode_syndrome, h1, check1_eq, Bool.xor_comm]
  · rw [hammingDecode_syndrome, h0, check2_eq, Bool.xor_comm]

/-- Settles O26: a flip is what the nonzero syndrome makes, and the count is the sum of two bits. -/
theorem decAnswersErrorAndCount : Obligations.DecAnswersErrorAndCount := by
  intro b s h
  refine ⟨_, _, answersDec_of_noStream h b, errorFlag_eq_true_iff b, ?_, correctionCount_toNat_eq_ite _ b, ?_,
    hammingDecode_nibble_eq_extractLsb' _ b, ?_⟩
  · rw [hammingDecode_error, errorFlag_eq_true_iff, hammingDecode_word, Ne, Ne, correct_eq_self_iff]
  · rw [hammingDecode_count, correctionCount_eq]
    split_ifs <;> decide
  · intro hm
    rw [hammingDecode_word, hm, correct_column_getLsbD_seven]

/-- Settles O27: the syndrome is additive and a word is the exclusive-or of its bits. -/
theorem syndromeIsLinear : Obligations.SyndromeIsLinear := by
  refine ⟨syndrome_xor, syndrome_hammingEncode, fun n e => ?_⟩
  have hbits := syndrome_foldr_xor (((List.range 8).filter fun k => e.getLsbD k).map fun k => 1#8 <<< k)
  rwa [foldr_xor_bits, List.map_map, ← syndrome_hammingEncode_xor n e] at hbits

/-- Settles O28: the eight columns by evaluation; a nonzero syndrome is the column of the bit that COLUMN names. -/
theorem columnsOfTheBitPositions : Obligations.ColumnsOfTheBitPositions := by
  refine ⟨fun s h p hp => ⟨_, _, answersDec_of_noStream h _, ?_⟩, fun v hv => ?_⟩
  · rw [hammingDecode_syndrome]
    revert p
    decide
  · obtain ⟨hlt, hcol⟩ := columnFlip_spec hv
    refine ⟨⟨columnFlip v, hlt⟩, hcol, fun k hk => Fin.ext ?_⟩
    obtain ⟨-, hflip⟩ := syndrome_column k.isLt
    rw [← hflip, hk]

/-- Settles O29: COLUMN inverts the columns, so it undoes a single flip of a code word. -/
theorem columnMapFlipsTheNamedBit : Obligations.ColumnMapFlipsTheNamedBit := by
  intro s h hm
  refine ⟨fun b => ?word, fun v j k hj hk hvj hvk => ?unique, fun n k hk => ?single⟩
  case word =>
    have hans := answersDec_of_noStream h b
    rw [hm] at hans
    refine ⟨_, _, hans, correct_column_getLsbD_seven b, fun hs => ?_⟩
    obtain ⟨hlt, hcol⟩ := columnFlip_spec hs
    exact ⟨_, hlt, hcol, correct_of_nonzero hs, columnFlip_mem_table hs⟩
  case unique =>
    obtain ⟨-, hflipj⟩ := syndrome_column hj
    obtain ⟨-, hflipk⟩ := syndrome_column hk
    rw [← hflipj, ← hflipk, hvj, hvk]
  case single =>
    obtain ⟨hne, -⟩ := syndrome_column hk
    have hans := answersDec_hammingEncode_xor h hm n (1#8 <<< k)
    rw [correct_column_bit hk, BitVec.setWidth_zero, BitVec.xor_zero, BitVec.xor_zero] at hans
    exact ⟨_, hans, (errorFlag_eq_true_iff _).mpr hne, correctionCount_of_odd (weight_bit_odd (by omega)) _, rfl⟩

/-- Settles O30: the answer to a single flip is the sent word with what SHIFT leaves of the flip. -/
theorem shiftMapFlipsTheNumberedBit : Obligations.ShiftMapFlipsTheNumberedBit := by
  intro s h hm
  refine ⟨fun b => ?word, fun n k hk => ?single⟩
  case word =>
    have hans := answersDec_of_noStream h b
    rw [hm] at hans
    exact ⟨_, _, hans, correct_of_nonzero, correct_shift_of_seven⟩
  case single =>
    obtain ⟨hword, hnibble⟩ := correct_shift_bit_eq_zero_iff hk
    refine ⟨_, _, answersDec_hammingEncode_xor h hm n (1#8 <<< k), ?_, ?_⟩
    · rw [xor_eq_left_iff_eq_zero, hword]
    · rw [xor_eq_left_iff_eq_zero, hnibble]

/-- Settles O33: the command word decodes to DEC of its byte, the pseudocode is `hammingDecode` field by field, and the
corner cases are those of the error pattern. -/
theorem decCommandAndDecodeFunction : Obligations.DecCommandAndDecodeFunction := by
  refine ⟨fun s b rest hm => ?command, fun b s h => answersError_dec_of_stream h b, fun m b => ?fields, fun m n => ?code,
    fun m n => ?bit7, fun m n e hw h7 => ?double, fun b => correct_shift_of_seven, by decide⟩
  case command =>
    rw [step_of_dec_command hm, Result.ofDec, setWidth_eight_eq_append]
    rfl
  case fields =>
    exact ⟨rfl, fun h => ⟨(errorFlag_eq_false_iff b).mpr h, correct_of_zero h⟩,
      fun h => ⟨(errorFlag_eq_true_iff b).mpr h, correct_of_nonzero h⟩, correctionCount_toNat_eq_ite m b,
      hammingDecode_nibble_eq_extractLsb' m b⟩
  case code =>
    rw [hammingDecode_hammingEncode]
    exact ⟨rfl, rfl⟩
  case bit7 =>
    intro x
    have hx : x = _ := hammingDecode_hammingEncode_bit7 m n
    rw [hx]
    exact ⟨rfl, rfl, rfl, rfl⟩
  case double =>
    intro x
    have hx : x = _ := hammingDecode_hammingEncode_xor m n e
    obtain ⟨-, hcount⟩ := detected_of_two_low hw h7 m
    rw [hx]
    refine ⟨hcount, ?_⟩
    rintro rfl
    rw [Ne, xor_eq_left_iff_eq_zero, setWidth_correct_column_eq_zero_iff, lowWeight_eq_weight h7]
    omega

end Sys2Proof.Machine
end

section
/-! PROOF. The outcomes of DEC by error pattern (spec R110, R111). -/

namespace Sys2Proof.Machine

/-- Settles O31: the nibble is kept exactly when at most one of bits 0 to 6 is wrong, and the count follows from the parity
of the weight. -/
theorem singleErrorsCorrectedDoubleDetected : Obligations.SingleErrorsCorrectedDoubleDetected := by
  intro n e s h hm
  have hnibble : n ^^^ (correct .column e).setWidth 4 = n ↔ lowWeight e ≤ 1 := by
    rw [xor_eq_left_iff_eq_zero, setWidth_correct_column_eq_zero_iff]
  have hlow := weight_eq_lowWeight_add e
  have hbit := Bool.toNat_le (e.getLsbD 7)
  refine ⟨_, _, answersDec_hammingEncode_xor h hm n e, ?none, fun hw he => ?one, ?bit7, fun hw h7 => ?twoLow,
    fun hw h7 => ?lowAndBit7, fun hw => ?three, ⟨0x07#8, ?_⟩, ⟨0x83#8, ?_⟩⟩
  case none =>
    rintro rfl
    exact ⟨hnibble.mpr (by decide), (errorFlag_eq_false_iff 0#8).mpr rfl, correctionCount_zero _⟩
  case bit7 =>
    rintro rfl
    exact ⟨hnibble.mpr (by decide), (errorFlag_eq_false_iff 0x80#8).mpr rfl, correctionCount_of_odd (by decide) _⟩
  case one =>
    have h1 := lowWeight_of_weight_one hw he
    exact ⟨hnibble.mpr h1.le, errorFlag_of_lowWeight (by omega) (by omega), correctionCount_of_odd (by omega) _⟩
  case twoLow =>
    have h2 := lowWeight_eq_weight h7
    exact ⟨mt hnibble.mp (by omega), detected_of_two_low hw h7 _⟩
  case lowAndBit7 =>
    rw [h7, Bool.toNat_true] at hlow
    have he : errorFlag e = true := errorFlag_of_lowWeight (by omega) (by omega)
    exact ⟨hnibble.mpr (by omega), he, correctionCount_of_even (by omega) he _⟩
  case three => exact ⟨mt hnibble.mp (by omega), correctionCount_of_odd (by omega) _⟩
  all_goals
    rw [syndrome_hammingEncode_xor]
    decide

/-- Settles O32: the answer is the sent word with what SHIFT leaves of the pattern, which the table gives; the counts do not
depend on the map. -/
theorem shiftMapOutcomes : Obligations.ShiftMapOutcomes := by
  intro n s h hm
  refine ⟨fun p hp => ?single, ?bit7, ?none, fun e hw h7 => ?double⟩
  case single =>
    obtain ⟨hword, hnibble, he, hlt⟩ := correct_shift_table p hp
    refine ⟨_, _, answersDec_hammingEncode_xor h hm n (1#8 <<< p.1), ?_, ?_, he,
      correctionCount_of_odd (weight_bit_odd hlt) _⟩
    · rw [hword, BitVec.xor_assoc]
    · rw [xor_xor_cancel_comm, hnibble]
  case bit7 =>
    have hans := answersDec_of_noStream h (hammingEncode n ^^^ 0x80#8)
    rw [hammingDecode_hammingEncode_bit7] at hans
    exact ⟨_, hans, rfl, rfl, rfl⟩
  case none =>
    have hans := answersDec_of_noStream h (hammingEncode n)
    rw [hammingDecode_hammingEncode] at hans
    exact ⟨_, hans⟩
  case double =>
    obtain ⟨-, hcount⟩ := detected_of_two_low hw h7 .shift
    exact ⟨_, _, answersDec_hammingEncode_xor h hm n e, hcount⟩

end Sys2Proof.Machine
end

section
/-! SUPPORT. Which sequences are frames, and what the four stream operations answer (spec R130 to R133, R135, R137). -/

namespace Sys2Proof.Machine

/-- R133: bit 3 of a sequence shorter than 8 would belong to both markers. -/
theorem eight_le_length_of_markers {F : Bits} (hh : header <+: F) (ht : trailer <:+ F) : 8 ≤ F.length := by
  obtain ⟨rest, rfl⟩ := hh
  obtain ⟨front, hfront⟩ := ht
  have hlen := congrArg List.length hfront
  simp only [List.length_append, header, trailer, List.length_cons, List.length_nil] at hlen ⊢
  by_contra hshort
  have hfalse : (front ++ trailer)[3]? = some false := by
    obtain h | h | h | h : front.length = 0 ∨ front.length = 1 ∨ front.length = 2 ∨ front.length = 3 := by omega
    all_goals
      rw [List.getElem?_append_right (by omega), h]
      rfl
  have htrue : (header ++ rest)[3]? = some true := rfl
  rw [← hfront, hfalse] at htrue
  cases htrue

theorem header_prefix_frameOf (region : Bits) : header <+: frameOf region := ⟨region ++ trailer, by simp [frameOf]⟩

theorem trailer_suffix_frameOf (region : Bits) : trailer <:+ frameOf region := ⟨header ++ region, rfl⟩

/-- R132, R133: a frame is a sequence with the header in front and the trailer at the end. -/
theorem exists_eq_frameOf_iff (F : Bits) : (∃ region, F = frameOf region) ↔ header <+: F ∧ trailer <:+ F := by
  constructor
  · rintro ⟨region, rfl⟩
    exact ⟨header_prefix_frameOf region, trailer_suffix_frameOf region⟩
  · rintro ⟨hh, ht⟩
    have hlen := eight_le_length_of_markers hh ht
    obtain ⟨rest, rfl⟩ := hh
    have hrest : trailer.length ≤ rest.length := by
      rw [List.length_append] at hlen
      exact Nat.le_of_add_le_add_left hlen
    obtain ⟨region, rfl⟩ := List.suffix_of_suffix_length_le ht (List.suffix_append header rest) hrest
    exact ⟨region, by rw [frameOf, List.append_assoc]⟩

theorem exceedsMaxNibbles_of_fitsPayload {p : Params} {len : Nat} (h : fitsPayload p len) :
    exceedsMaxNibbles p 0 4 len = false :=
  (exceedsMaxNibbles_eq_false p 0 4 len).mpr fun m hm => (h m hm).trans_eq (Nat.zero_add _).symm

theorem exceedsMaxNibbles_of_fitsFrame {p : Params} {len : Nat} (h : fitsFrame p len) :
    exceedsMaxNibbles p 8 p.width.bits len = false :=
  (exceedsMaxNibbles_eq_false p 8 p.width.bits len).mpr h

theorem answersStream_wrap (s : State) : answersStream .wrap s (frameOf s.sin) := rfl

theorem answersStream_wrap_iff {s : State} {out : Bits} : answersStream .wrap s out ↔ out = frameOf s.sin := by
  constructor
  · intro h
    cases answers_ok_completes h rfl
    rfl
  · rintro rfl
    exact answersStream_wrap s

theorem answersStream_strip_iff {s : State} {region : Bits} :
    answersStream .strip s region ↔ s.sin = frameOf region := by
  refine ⟨fun h => ?_, fun h => execStrip_of_frame h⟩
  cases answers_ok_completes h rfl with
  | strip _ hframe => exact hframe

theorem answersError_strip {s : State} (h : ∀ region, s.sin ≠ frameOf region) : answersError .strip s .syncError :=
  execStrip_of_noFrame h

theorem answersError_encodeFrame {s : State} (hfits : fitsPayload s.params s.sin.length)
    (h : s.sin.length = 0 ∨ s.sin.length % 4 ≠ 0) : answersError .encodeFrame s .invalidPayloadLength :=
  (withinMaxNibbles_of_fits (exceedsMaxNibbles_of_fitsPayload hfits) _).trans (encodeFrameBody_of_badLength h)

theorem answersStream_encodeFrame {s : State} (hfits : fitsPayload s.params s.sin.length) (h0 : s.sin.length ≠ 0)
    (h4 : s.sin.length % 4 = 0) :
    answersStream .encodeFrame s (frameOf (encodeGroups s.params.width s.sin)) :=
  (withinMaxNibbles_of_fits (exceedsMaxNibbles_of_fitsPayload hfits) _).trans (encodeFrameBody_of_goodLength h0 h4)

/-- R135: the only frame that ENCODE_FRAME can answer. -/
theorem eq_frameOf_of_answersStream_encodeFrame {s : State} {out : Bits} (h : answersStream .encodeFrame s out) :
    out = frameOf (encodeGroups s.params.width s.sin) := by
  cases answers_ok_completes h rfl
  rfl

/-- R163: ENCODE_FRAME gives no frame for the empty payload. -/
theorem length_ne_zero_of_answersStream_encodeFrame {s : State} {out : Bits} (h : answersStream .encodeFrame s out) :
    s.sin.length ≠ 0 := by
  intro h0
  have hbad : operationResult s.params.width s.params.flipMap s.sin .encodeFrame = .ofError .invalidPayloadLength :=
    if_pos (.inl h0)
  cases (answers_eq_operationResult h).trans hbad

theorem answersError_decodeFrame_of_badRegion {s : State} {region : Bits} (hfits : fitsFrame s.params s.sin.length)
    (h : s.sin = frameOf region) (hw : region.length % s.params.width.bits ≠ 0) :
    answersError .decodeFrame s .malformedGroupError :=
  (withinMaxNibbles_of_fits (exceedsMaxNibbles_of_fitsFrame hfits) _).trans (decodeFrameBody_of_badRegion h hw)

theorem answersFrame_of_groups {s : State} {region : Bits} (hfits : fitsFrame s.params s.sin.length)
    (h : s.sin = frameOf region) (hw : region.length % s.params.width.bits = 0) :
    answersFrame s (serNibbles ((decodeGroups s.params region).map Decoded.nibble))
      ((decodeGroups s.params region).map Decoded.diag) :=
  (withinMaxNibbles_of_fits (exceedsMaxNibbles_of_fitsFrame hfits) _).trans (decodeFrameBody_of_groups h hw)

end Sys2Proof.Machine
end

section
/-! SUPPORT. The groups of a payload and of a region one by one, and the word that is received for a group (spec R68, R69,
R135 to R137). -/

namespace Sys2Proof.Machine

theorem width_bits_pos (w : GroupWidth) : 0 < w.bits := by
  cases w <;> decide

/-- R68: the nibbles of a payload by their numbers. -/
theorem payloadNibbles_eq_map (P : Bits) : payloadNibbles P = (List.range (P.length / 4)).map (payloadNibble P) := by
  rw [payloadNibbles, chunks_eq_map, List.map_map]
  rfl

/-- R69: the words of a region by their numbers. -/
theorem regionWords_eq_map (w : Nat) (region : Bits) :
    regionWords w region = (List.range (region.length / w)).map (regionWord w region) := by
  rw [regionWords, chunks_eq_map, List.map_map]
  rfl

theorem decodeGroups_eq_map (p : Params) (region : Bits) :
    decodeGroups p region = (List.range (region.length / p.width.bits)).map
      fun i => hammingDecode p.flipMap (regionWord p.width.bits region i) := by
  rw [decodeGroups, regionWords_eq_map, List.map_map]
  rfl

theorem decodeGroups_getElem? {p : Params} {region : Bits} {i : Nat} (h : i < region.length / p.width.bits) :
    (decodeGroups p region)[i]? = some (hammingDecode p.flipMap (regionWord p.width.bits region i)) := by
  rw [decodeGroups_eq_map, List.getElem?_map, List.getElem?_range h]
  rfl

/-- R135: the groups of a payload by the numbers of its nibbles. -/
theorem encodeGroups_eq_flatMap_range (w : GroupWidth) (P : Bits) :
    encodeGroups w P = (List.range (P.length / 4)).flatMap fun i => ser w.bits (hammingEncode (payloadNibble P i)) := by
  rw [encodeGroups, serWords, payloadNibbles_eq_map, List.map_map, List.flatMap_map]
  rfl

/-- R135: the groups of a payload that is written from nibbles. -/
theorem encodeGroups_serNibbles (w : GroupWidth) (ns : List Nibble) :
    encodeGroups w (serNibbles ns) = ns.flatMap fun n => ser w.bits (hammingEncode n) := by
  rw [encodeGroups, payloadNibbles_serNibbles, serWords, List.flatMap_map]

/-- R135: a payload written from nibbles, at least one, has a frame. -/
theorem answersStream_encodeFrame_serNibbles {s : State} {ns : List Nibble} (hs : s.sin = serNibbles ns) (hne : ns ≠ [])
    (hfits : fitsPayload s.params s.sin.length) :
    answersStream .encodeFrame s (frameOf (ns.flatMap fun n => ser s.params.width.bits (hammingEncode n))) := by
  have hlen : s.sin.length = 4 * ns.length := by rw [hs, serNibbles_length]
  have hpos := List.length_pos_iff.mpr hne
  rw [← encodeGroups_serNibbles, ← hs]
  exact answersStream_encodeFrame hfits (by omega) (by omega)

/-- R68: nibble `i` of a payload stands in the four bits from `4 * i`. -/
theorem serNibbles_drop_take {ns : List Nibble} {i : Nat} {n : Nibble} (h : ns[i]? = some n) :
    ((serNibbles ns).drop (4 * i)).take 4 = ser 4 n := by
  obtain ⟨hi, -⟩ := List.getElem?_eq_some_iff.mp h
  have hlen := serNibbles_length ns
  have hn := payloadNibbles_getElem? (P := serNibbles ns) (i := i) (by omega)
  rw [payloadNibbles_serNibbles, h] at hn
  rw [Option.some.inj hn, ser_payloadNibble (by omega)]

/-- R69: the word that is received from the group in which `c` is sent. -/
def receivedWord (w : GroupWidth) (c : CodeWord) : CodeWord :=
  BitVec.ofNat 8 (deser (ser w.bits c))

/-- R69: eight bits carry the whole word. -/
theorem receivedWord_eight (c : CodeWord) : receivedWord .eight c = c := by
  rw [receivedWord, GroupWidth.bits, deser_ser_of_le (le_refl 8), BitVec.ofNat_toNat, BitVec.setWidth_eq]

/-- R69, R136: seven bits leave out bit 7. -/
theorem receivedWord_seven (c : CodeWord) : receivedWord .seven c = c &&& 0x7F#8 := by
  rw [receivedWord, GroupWidth.bits, deser_ser_eq_mod, ← Nat.and_two_pow_sub_one_eq_mod, BitVec.ofNat_and,
    BitVec.ofNat_toNat, BitVec.setWidth_eq]

theorem regionWords_serWords_eq_receivedWord (w : GroupWidth) (cs : List CodeWord) :
    regionWords w.bits (serWords w.bits cs) = cs.map (receivedWord w) := by
  rw [regionWords_serWords (width_bits_pos w)]
  exact List.map_congr_left fun c _ => by rw [receivedWord, deser_ser_eq_mod]

/-- R69: the word of a group that stands after `i` whole groups. -/
theorem regionWord_of_group {w : GroupWidth} {front : Bits} {i : Nat} (h : front.length = w.bits * i) (c : CodeWord)
    (back : Bits) : regionWord w.bits (front ++ ser w.bits c ++ back) i = receivedWord w c := by
  rw [regionWord, ← h, List.append_assoc, List.drop_left, List.take_left' (ser_length _ c), receivedWord]

end Sys2Proof.Machine
end

section
/-! SUPPORT. What `Decode` makes of a group that carries a code word, with or without wrong bits (spec R142, R145). -/

namespace Sys2Proof.Machine

/-- R136: the part of the error pattern that dropping bit 7 of `c` makes. -/
def droppedBit (c : CodeWord) : CodeWord :=
  if c.getLsbD 7 then 0x80#8 else 0#8

theorem droppedBit_getLsbD_seven (c : CodeWord) : (droppedBit c).getLsbD 7 = c.getLsbD 7 := by
  unfold droppedBit
  cases c.getLsbD 7 <;> rfl

theorem lowWeight_droppedBit (c : CodeWord) : lowWeight (droppedBit c) = 0 := by
  unfold droppedBit
  cases c.getLsbD 7 <;> decide

theorem droppedBit_getLsbD_low (c : CodeWord) {i : Nat} (h : i < 7) : (droppedBit c).getLsbD i = false :=
  (lowWeight_eq_zero_iff _).mp (lowWeight_droppedBit c) i h

/-- R136: what is wrong with `c` when it is sent in seven bits with the wrong bits `e`. -/
def receivedPattern (c e : CodeWord) : CodeWord :=
  e ^^^ droppedBit c

theorem receivedPattern_getLsbD_low (c e : CodeWord) {i : Nat} (h : i < 7) :
    (receivedPattern c e).getLsbD i = e.getLsbD i := by
  rw [receivedPattern, BitVec.getLsbD_xor, droppedBit_getLsbD_low c h, Bool.xor_false]

theorem receivedPattern_getLsbD_seven (c : CodeWord) {e : CodeWord} (h : e.getLsbD 7 = false) :
    (receivedPattern c e).getLsbD 7 = c.getLsbD 7 := by
  rw [receivedPattern, BitVec.getLsbD_xor, h, droppedBit_getLsbD_seven, Bool.false_xor]

/-- R136: the dropped bit is received as one more wrong bit. -/
theorem receivedWord_seven_xor (c : CodeWord) {e : CodeWord} (h : e.getLsbD 7 = false) :
    receivedWord .seven (c ^^^ e) = c ^^^ receivedPattern c e := by
  rw [receivedWord_seven]
  apply BitVec.eq_of_getLsbD_eq
  intro i hi
  rw [BitVec.getLsbD_and, BitVec.getLsbD_xor, BitVec.getLsbD_xor]
  obtain hlow | rfl : i < 7 ∨ i = 7 := by omega
  · have hmask : (0x7F#8).getLsbD i = true := by
      revert i
      decide
    rw [hmask, Bool.and_true, receivedPattern_getLsbD_low c e hlow]
  · have hmask : (0x7F#8).getLsbD 7 = false := by decide
    rw [hmask, Bool.and_false, receivedPattern_getLsbD_seven c h, Bool.xor_self]

theorem lowWeight_receivedPattern (c : CodeWord) {e : CodeWord} (h : e.getLsbD 7 = false) :
    lowWeight (receivedPattern c e) = weight e := by
  rw [← lowWeight_eq_weight h]
  apply lowWeight_eq_of_xor
  rw [receivedPattern, xor_xor_cancel_comm, lowWeight_droppedBit]

theorem weight_receivedPattern (c : CodeWord) {e : CodeWord} (h : e.getLsbD 7 = false) :
    weight (receivedPattern c e) = weight e + (c.getLsbD 7).toNat := by
  rw [weight_eq_lowWeight_add, lowWeight_receivedPattern c h, receivedPattern_getLsbD_seven c h]

/-- R100, R101: the syndrome sees bits 0 to 6 only. -/
theorem errorFlag_of_lowWeight_zero {v : CodeWord} (h : lowWeight v = 0) : errorFlag v = false := by
  have hbits := (lowWeight_eq_zero_iff v).mp h
  rw [errorFlag_eq_false_iff]
  simp only [syndrome, check0_eq, check1_eq, check2_eq, hbits, Nat.reduceLT]
  rfl

/-- R142: the record of a group that carries the code word of `n` and has no wrong bit. -/
def cleanRecord (w : GroupWidth) (n : Nibble) : Diag :=
  let c := hammingEncode n
  match w with
  | .eight => { error := false, count := 0#2, syndrome := 0#3, word := c }
  | .seven => { error := false, count := if c.getLsbD 7 then 1#2 else 0#2, syndrome := 0#3, word := c &&& 0x7F#8 }

/-- R142: a code word comes back from its group under either width and either flip map. -/
theorem hammingDecode_receivedWord (m : FlipMap) (w : GroupWidth) (n : Nibble) :
    hammingDecode m (receivedWord w (hammingEncode n)) = { nibble := n, diag := cleanRecord w n } := by
  cases w with
  | eight =>
    rw [receivedWord_eight, hammingDecode_hammingEncode]
    rfl
  | seven =>
    have hword := receivedWord_seven_xor (hammingEncode n) (e := 0#8) rfl
    rw [BitVec.xor_zero, receivedPattern, BitVec.zero_xor] at hword
    rw [cleanRecord, ← receivedWord_seven, hword, droppedBit]
    cases (hammingEncode n).getLsbD 7 with
    | false =>
      rw [if_neg Bool.false_ne_true, BitVec.xor_zero]
      exact hammingDecode_hammingEncode m n
    | true => exact hammingDecode_hammingEncode_bit7 m n

theorem decodeGroups_encodeGroups (p : Params) (P : Bits) :
    decodeGroups p (encodeGroups p.width P) = (payloadNibbles P).map fun n => ⟨n, cleanRecord p.width n⟩ := by
  rw [decodeGroups, encodeGroups, regionWords_serWords_eq_receivedWord, List.map_map, List.map_map]
  exact List.map_congr_left fun n _ => hammingDecode_receivedWord p.flipMap p.width n

/-- R8: a frame carries as many groups as its payload has nibbles. -/
theorem fitsFrame_of_fitsPayload {p : Params} {P : Bits} (h : fitsPayload p P.length) :
    fitsFrame p (frameOf (encodeGroups p.width P)).length := by
  intro m hm
  have hgroups : P.length / 4 ≤ m := by
    have hP := h m hm
    omega
  rw [frameOf_length, encodeGroups_length, Nat.add_comm]
  exact Nat.add_le_add_left (Nat.mul_le_mul_left _ hgroups) 8

/-- R142: DECODE_FRAME of the frame of a payload of whole nibbles. -/
theorem answersFrame_of_encodeGroups {t : State} {P : Bits} (ht : t.sin = frameOf (encodeGroups t.params.width P))
    (h4 : P.length % 4 = 0) (hfits : fitsPayload t.params P.length) :
    answersFrame t P ((payloadNibbles P).map (cleanRecord t.params.width)) := by
  have hwhole : (encodeGroups t.params.width P).length % t.params.width.bits = 0 := by
    rw [encodeGroups_length, Nat.mul_mod_right]
  have hans := answersFrame_of_groups (ht ▸ fitsFrame_of_fitsPayload hfits) ht hwhole
  rw [decodeGroups_encodeGroups, List.map_map, List.map_map] at hans
  change answersFrame t (serNibbles ((payloadNibbles P).map id)) _ at hans
  rw [List.map_id, serNibbles_payloadNibbles h4] at hans
  exact hans

/-- R137: what DECODE_FRAME answers for a group that stands after `i` whole groups and before whole groups. -/
theorem answersFrame_with_group {s : State} {w : GroupWidth} {region front back : Bits} {c : CodeWord} {i : Nat}
    (hw : s.params.width = w) (hs : s.sin = frameOf region) (hregion : region = front ++ ser w.bits c ++ back)
    (hfront : front.length = w.bits * i) (hback : back.length % w.bits = 0)
    (hfits : fitsFrame s.params s.sin.length) :
    ∃ out ds, answersFrame s out ds ∧ ds[i]? = some (hammingDecode s.params.flipMap (receivedWord w c)).diag ∧
      (out.drop (4 * i)).take 4 = ser 4 (hammingDecode s.params.flipMap (receivedWord w c)).nibble := by
  subst hw
  have hlen : region.length = s.params.width.bits * (i + 1) + back.length := by
    rw [hregion, List.length_append, List.length_append, ser_length, hfront, Nat.mul_succ]
  have hwhole : region.length % s.params.width.bits = 0 := by
    rw [hlen, Nat.mul_add_mod, hback]
  have hi : i < region.length / s.params.width.bits := by
    rw [hlen, Nat.mul_add_div (width_bits_pos _)]
    exact Nat.lt_of_succ_le (Nat.le_add_right _ _)
  have hgroup := decodeGroups_getElem? hi
  rw [hregion, regionWord_of_group hfront, ← hregion] at hgroup
  refine ⟨_, _, answersFrame_of_groups hfits hs hwhole, ?_, serNibbles_drop_take ?_⟩
  · rw [List.getElem?_map, hgroup, Option.map_some]
  · rw [List.getElem?_map, hgroup, Option.map_some]

end Sys2Proof.Machine
end

section
/-! PROOF. The markers: WRAP and STRIP (spec R130 to R133). -/

namespace Sys2Proof.Machine

/-- Settles O36: the word has the fields of WRAP, and WRAP answers the frame around `sin`. -/
theorem wrapAddsTheMarkers : Obligations.WrapAddsTheMarkers :=
  ⟨decode_eq_ok_iff.mpr (by decide), answersStream_wrap⟩

/-- Settles O37: a sequence without one of the markers is no frame. -/
theorem stripChecksAndRemovesTheMarkers : Obligations.StripChecksAndRemovesTheMarkers := by
  refine ⟨decode_eq_ok_iff.mpr (by decide), fun s => ⟨fun region h => answersStream_strip_iff.mpr h, fun hbad => ?_⟩⟩
  refine answersError_strip fun region hframe => ?_
  obtain ⟨hh, ht⟩ := (exists_eq_frameOf_iff s.sin).mp ⟨region, hframe⟩
  obtain hshort | hhead | htail := hbad
  · exact absurd (eight_le_length_of_markers hh ht) (by omega)
  · exact hhead (List.prefix_iff_eq_take.mp hh).symm
  · exact htail (List.suffix_iff_eq_drop.mp ht).symm

/-- Settles O38: STRIP answers exactly on frames, which are what the plain test accepts, and the markers cannot overlap. -/
theorem plainMarkerTestGivesTheSameVerdict : Obligations.PlainMarkerTestGivesTheSameVerdict := by
  refine ⟨fun s => ?_, fun F hshort ⟨hh, ht⟩ => absurd (eight_le_length_of_markers hh ht) (by omega)⟩
  simp only [answersStream_strip_iff]
  exact exists_eq_frameOf_iff s.sin

end Sys2Proof.Machine
end

section
/-! PROOF. ENCODE_FRAME and DECODE_FRAME (spec R134 to R145). -/

namespace Sys2Proof.Machine

/-- Settles O42: the frame's groups are those of the payload's nibbles by number. -/
theorem encodeFrameAnswersTheFrame : Obligations.EncodeFrameAnswersTheFrame := by
  refine ⟨decode_eq_ok_iff.mpr (by decide), fun s hfits => ⟨answersError_encodeFrame hfits, fun h0 h4 => ?_⟩⟩
  exact ⟨_, answersStream_encodeFrame hfits h0 h4, encodeGroups_eq_flatMap_range _ _, encodeGroups_length _ _⟩

/-- Settles O43: seven sent bits are the bits 6 to 0, and the nibbles whose code word has bit 7 are found by evaluation. -/
theorem sevenBitGroupsDropTheParityBit : Obligations.SevenBitGroupsDropTheParityBit := by
  refine ⟨fun s ns hw hne hs hfits => ?_, by decide⟩
  have hans := answersStream_encodeFrame_serNibbles hs hne hfits
  rw [hw] at hans
  exact hans

/-- Settles O44: the groups of the region by number; under COLUMN a single flip leaves nothing in the nibble. -/
theorem decodeFrameAnswersEveryGroup : Obligations.DecodeFrameAnswersEveryGroup := by
  refine ⟨decode_eq_ok_iff.mpr (by decide), fun s region h hfits =>
    ⟨answersError_decodeFrame_of_badRegion hfits h, fun hw => ⟨?groups, fun hm i n k hk hword => ?single⟩⟩⟩
  case groups =>
    have hans := answersFrame_of_groups hfits h hw
    rw [decodeGroups_eq_map, List.map_map, List.map_map, serNibbles, List.flatMap_map] at hans
    exact hans
  case single =>
    simp only [hword, hm, hammingDecode_hammingEncode_xor]
    rw [xor_eq_left_iff_eq_zero, setWidth_correct_column_eq_zero_iff]
    exact lowWeight_bit_le hk

/-- Settles O45: the frame is that of the empty region, and a payload that ENCODE_FRAME takes gives at least one group. -/
theorem emptyFrameDecodesAndIsNeverEncoded : Obligations.EmptyFrameDecodesAndIsNeverEncoded := by
  refine ⟨fun s hs => ?decode, fun s out h hout => ?encode⟩
  case decode =>
    have hfits : fitsFrame s.params s.sin.length := fun m _ => by
      rw [hs]
      exact Nat.le_add_right 8 _
    have hans := answersFrame_of_groups (region := []) hfits hs (Nat.zero_mod _)
    rw [decodeGroups_eq_map, List.length_nil, Nat.zero_div] at hans
    exact hans
  case encode =>
    have h0 := length_ne_zero_of_answersStream_encodeFrame h
    have h4 := answersStream_encodeFrame_length_mod h
    have hlen := congrArg List.length (eq_frameOf_of_answersStream_encodeFrame h)
    have hpos : 0 < s.params.width.bits * (s.sin.length / 4) := Nat.mul_pos (width_bits_pos _) (by omega)
    rw [hout, frameOf_length, encodeGroups_length] at hlen
    simp only [List.length_cons, List.length_nil] at hlen
    omega

/-- Settles O47: STRIP answers the one region of the frame it is given. -/
theorem stripUndoesWrapAndEncodeFrame : Obligations.StripUndoesWrapAndEncodeFrame := by
  refine ⟨fun s t out h ht => ?wrap, fun s t ns out hs h ht => ?encodeFrame, fun s ns hne hs hfits =>
    ⟨_, answersStream_encodeFrame_serNibbles hs hne hfits⟩⟩
  case wrap => exact answersStream_strip_iff.mpr (ht.trans (answersStream_wrap_iff.mp h))
  case encodeFrame =>
    have hsin : s.sin = serNibbles ns := hs
    rw [answersStream_strip_iff, ht, eq_frameOf_of_answersStream_encodeFrame h, hsin, encodeGroups_serNibbles]

/-- Settles O48: the groups of the frame are received as the code words, up to the dropped bit, and the nibbles that they
decode to are sent as the payload. -/
theorem decodeFrameUndoesEncodeFrame : Obligations.DecodeFrameUndoesEncodeFrame := by
  intro s t hpos h4 hfits hp
  refine ⟨_, answersStream_encodeFrame hfits hpos.ne' h4, fun ht => ?_⟩
  rw [← hp] at ht hfits
  have hans := answersFrame_of_encodeGroups ht h4 hfits
  rw [payloadNibbles_eq_map, List.map_map, hp] at hans
  exact hans

/-- Settles O49: the group is received with the error pattern and the dropped bit, which counts for the weight only. -/
theorem sevenBitGroupOutcomes : Obligations.SevenBitGroupOutcomes := by
  intro s n e before after i hw hm he hbefore hafter hfits hs
  have hlow := lowWeight_receivedPattern (hammingEncode n) he
  have hnibble : n ^^^ (correct .column (receivedPattern (hammingEncode n) e)).setWidth 4 = n ↔ weight e ≤ 1 := by
    rw [xor_eq_left_iff_eq_zero, setWidth_correct_column_eq_zero_iff, hlow]
  have hcount := correctionCount_eq .column (receivedPattern (hammingEncode n) e)
  rw [weight_receivedPattern _ he] at hcount
  obtain ⟨out, ds, hans, hd, hout⟩ := answersFrame_with_group (w := .seven) hw hs rfl hbefore hafter hfits
  rw [hm, receivedWord_seven_xor _ he, hammingDecode_hammingEncode_xor] at hd hout
  refine ⟨out, ds, _, _, hans, hd, hout, fun h0 => ?none, fun h1 => ?one, fun h2 => ?two⟩
  case none =>
    have herr := errorFlag_of_lowWeight_zero (hlow.trans h0)
    refine ⟨hnibble.mpr (by omega), herr, ?_⟩
    rw [hcount, h0, herr]
    cases (hammingEncode n).getLsbD 7 <;> rfl
  case one =>
    have herr := errorFlag_of_lowWeight (e := receivedPattern (hammingEncode n) e) (by omega) (by omega)
    refine ⟨hnibble.mpr (by omega), herr, ?_⟩
    rw [hcount, h1, herr]
    cases (hammingEncode n).getLsbD 7 <;> rfl
  case two =>
    have herr := errorFlag_of_lowWeight (e := receivedPattern (hammingEncode n) e) (by omega) (by omega)
    refine ⟨mt hnibble.mp (by omega), herr, ?_⟩
    rw [hcount, h2, herr]
    cases (hammingEncode n).getLsbD 7 <;> rfl

end Sys2Proof.Machine
end

section
/-! SUPPORT. Which error each operation ends with and when (spec R140, R141, R161 to R165), and the sequences that are no
frame. -/

namespace Sys2Proof.Machine

/-- R161 to R165: the errors of each operation, with what the stream operand then is. -/
inductive EndsInError (w : GroupWidth) (sin : Bits) : Instr → ErrorClass → Prop
  | enc (n : Nibble) (h : sin ≠ []) : EndsInError w sin (.enc n) .illegalOperation
  | dec (b : CodeWord) (h : sin ≠ []) : EndsInError w sin (.dec b) .illegalOperation
  | strip (h : ∀ region, sin ≠ frameOf region) : EndsInError w sin .strip .syncError
  | encodeFrame (h : sin.length = 0 ∨ sin.length % 4 ≠ 0) : EndsInError w sin .encodeFrame .invalidPayloadLength
  | noFrame (h : ∀ region, sin ≠ frameOf region) : EndsInError w sin .decodeFrame .syncError
  | badRegion (region : Bits) (h : sin = frameOf region) (hw : region.length % w.bits ≠ 0) :
      EndsInError w sin .decodeFrame .malformedGroupError

/-- An operation whose result is an error had the cause of that error. -/
theorem endsInError_of_operationResult {w : GroupWidth} {m : FlipMap} {sin : Bits} {i : Instr} {e : ErrorClass}
    (h : operationResult w m sin i = .ofError e) : EndsInError w sin i e := by
  cases i with
  | enc n =>
    simp only [operationResult] at h
    split at h <;> cases h
    next hsin => exact .enc n hsin
  | dec b =>
    simp only [operationResult] at h
    split at h <;> cases h
    next hsin => exact .dec b hsin
  | wrap => cases h
  | strip =>
    simp only [operationResult] at h
    cases hr : regionOf sin <;> rw [hr] at h <;> cases h
    exact .strip (regionOf_eq_none.mp hr)
  | encodeFrame =>
    simp only [operationResult] at h
    split at h <;> cases h
    next hlen => exact .encodeFrame hlen
  | decodeFrame =>
    simp only [operationResult] at h
    cases hr : regionOf sin with
    | none =>
      rw [hr] at h
      cases h
      exact .noFrame (regionOf_eq_none.mp hr)
    | some region =>
      rw [hr, Option.elim_some] at h
      split at h <;> cases h
      next hw => exact .badRegion region (regionOf_eq_some.mp hr) hw

theorem endsInError_of_answersError {i : Instr} {s : State} {e : ErrorClass} (h : answersError i s e) :
    EndsInError s.params.width s.sin i e :=
  endsInError_of_operationResult (answers_eq_operationResult h).symm

/-- R165: IllegalOperation is the result of the illegal commands only. -/
theorem commandResult_status_illegal_iff (w : GroupWidth) (m : FlipMap) (cmd : CmdWord) (sin : Bits) :
    (commandResult w m cmd sin).status = .error .illegalOperation ↔ illegalCommand cmd sin = true := by
  constructor
  · contrapose
    intro hlegal
    obtain ⟨i, hd, hw⟩ := (illegalCommand_eq_false_iff cmd sin).mp (Bool.eq_false_iff.mpr hlegal)
    rw [commandResult, hd]
    exact operationResult_ne_illegal hw w m
  · intro h
    rw [commandResult_of_illegal h, ofError_status]

/-- R161, R168: a command is answered OK, or with IllegalOperation or an error of the operation its word spells, and an
error is the whole result. -/
theorem commandResult_cases (w : GroupWidth) (m : FlipMap) (cmd : CmdWord) (sin : Bits) :
    (commandResult w m cmd sin).status = .ok ∨
    ∃ e, commandResult w m cmd sin = .ofError e ∧
      (e = .illegalOperation ∨ ∃ i, decode cmd = .ok i ∧ EndsInError w sin i e) := by
  unfold commandResult
  cases hd : decode cmd with
  | error _ => exact .inr ⟨_, rfl, .inl rfl⟩
  | ok i =>
    obtain hrow | ⟨e, he⟩ := operationResult_completes_or_error w m sin i
    · exact .inl hrow.status_ok
    · exact .inr ⟨e, he, .inr ⟨i, rfl, endsInError_of_operationResult he⟩⟩

/-- R161: an error other than IllegalOperation is one of the operation the command word spells. -/
theorem endsInError_of_commandResult {w : GroupWidth} {m : FlipMap} {cmd : CmdWord} {sin : Bits} {e : ErrorClass}
    (h : (commandResult w m cmd sin).status = .error e) (he : e ≠ .illegalOperation) :
    ∃ i, decode cmd = .ok i ∧ EndsInError w sin i e := by
  obtain hok | ⟨e', hres, hcause⟩ := commandResult_cases w m cmd sin
  · cases hok.symm.trans h
  · rw [hres] at h
    cases h
    exact hcause.resolve_left he

theorem ne_frameOf_iff (F : Bits) : (∀ region, F ≠ frameOf region) ↔ ¬ (header <+: F ∧ trailer <:+ F) := by
  rw [← exists_eq_frameOf_iff, not_exists]

/-- R133: a sequence shorter than both markers is no frame. -/
theorem ne_frameOf_of_short {F : Bits} (h : F.length < 8) (region : Bits) : F ≠ frameOf region := by
  rintro rfl
  rw [frameOf_length] at h
  omega

/-- R132: the test on the first and the last four bits accepts the frames. -/
theorem hasMarkers_iff (F : Bits) : hasMarkers F ↔ ∃ region, F = frameOf region := by
  rw [exists_eq_frameOf_iff]
  constructor
  · rintro ⟨-, hh, ht⟩
    exact ⟨List.prefix_iff_eq_take.mpr hh.symm, List.suffix_iff_eq_drop.mpr ht.symm⟩
  · rintro ⟨hh, ht⟩
    exact ⟨eight_le_length_of_markers hh ht, (List.prefix_iff_eq_take.mp hh).symm,
      (List.suffix_iff_eq_drop.mp ht).symm⟩

theorem ne_frameOf_of_not_hasMarkers {F : Bits} (h : ¬ hasMarkers F) : ∀ region, F ≠ frameOf region :=
  not_exists.mp (mt (hasMarkers_iff F).mpr h)

theorem answersError_decodeFrame_of_noFrame {s : State} (hfits : fitsFrame s.params s.sin.length)
    (h : ∀ region, s.sin ≠ frameOf region) : answersError .decodeFrame s .syncError :=
  (withinMaxNibbles_of_fits (exceedsMaxNibbles_of_fitsFrame hfits) _).trans (decodeFrameBody_of_noFrame h)

theorem answersError_strip_iff (s : State) :
    answersError .strip s .syncError ↔ ∀ region, s.sin ≠ frameOf region := by
  refine ⟨fun h => ?_, answersError_strip⟩
  cases endsInError_of_answersError h with
  | strip hno => exact hno

theorem answersError_decodeFrame_iff {s : State} (hfits : fitsFrame s.params s.sin.length) :
    answersError .decodeFrame s .syncError ↔ ∀ region, s.sin ≠ frameOf region := by
  refine ⟨fun h => ?_, answersError_decodeFrame_of_noFrame hfits⟩
  cases endsInError_of_answersError h with
  | noFrame hno => exact hno

/-- R167: the step of an issued command whose operation ends with an error. -/
theorem step_of_answersError {s : State} {cmd : CmdWord} {sin : Bits} {rest : List HostMove} {i : Instr}
    {e : ErrorClass} (hm : s.moves = .issue cmd sin :: rest) (hd : decode cmd = .ok i)
    (h : answersError i ((s.hostGoesOn rest).present cmd sin) e) :
    step s = .next (((s.hostGoesOn rest).present cmd sin).give (.ofError e)) := by
  rw [step_of_issue hm, performCommand_of_decoded (i := i) hd]
  exact h

end Sys2Proof.Machine
end

section
/-! PROOF. The errors: who raises which and when, and in what order (spec R161 to R167). -/

namespace Sys2Proof.Machine

/-- Settles O39: on a frame neither operation ends with SyncError, and a short sequence is no frame. -/
theorem syncErrorExactlyWithoutMarkers : Obligations.SyncErrorExactlyWithoutMarkers := by
  refine fun s => ⟨?strip, fun hfits => ?decodeFrame, fun hshort => ?short⟩
  case strip => exact (answersError_strip_iff s).trans (ne_frameOf_iff s.sin)
  case decodeFrame => exact (answersError_decodeFrame_iff hfits).trans (ne_frameOf_iff s.sin)
  case short =>
    have hfits : fitsFrame s.params s.sin.length := fun m _ => hshort.le.trans (Nat.le_add_right 8 _)
    have hno := ne_frameOf_of_short hshort
    exact ⟨answersError_strip hno, answersError_decodeFrame_of_noFrame hfits hno⟩

/-- Settles O40: the length check is the one cause of an error in ENCODE_FRAME. -/
theorem invalidPayloadLengthExactly : Obligations.InvalidPayloadLengthExactly := by
  refine fun s hfits => ⟨fun h => ?_, answersError_encodeFrame hfits⟩
  cases endsInError_of_answersError h with
  | encodeFrame hlen => exact hlen

/-- Settles O41: MalformedGroupError has one cause in DECODE_FRAME, a region between markers with a part of a group. -/
theorem malformedGroupErrorExactly : Obligations.MalformedGroupErrorExactly := by
  refine fun s hfits => ⟨fun h => ?_, fun ⟨region, hs, hw⟩ => answersError_decodeFrame_of_badRegion hfits hs hw⟩
  cases endsInError_of_answersError h with
  | badRegion region hs hw => exact ⟨region, hs, hw⟩

/-- Settles O20: each operation answers OK from its own conditions, none of which looks at the content. -/
theorem contentIsNeverAnError : Obligations.ContentIsNeverAnError := by
  refine ⟨fun n s h => ⟨_, answersEnc_of_noStream h n⟩, fun b s h => ⟨_, _, answersDec_of_noStream h b⟩,
    fun s => ⟨_, answersStream_wrap s⟩, fun s hmarkers hw hfits => ?_⟩
  obtain ⟨region, hs⟩ := (hasMarkers_iff s.sin).mp hmarkers
  rw [hs, frameOf_length, Nat.add_sub_cancel] at hw
  exact ⟨_, _, answersFrame_of_groups hfits hs hw⟩

/-- Settles O19: legality is checked before the operand is looked at, and the markers before the groups. -/
theorem errorsAreReportedByPriority : Obligations.ErrorsAreReportedByPriority := by
  intro s cmd sin rest hm ends
  refine ⟨fun hbad => ?illegal, ?strip, ?noFrame, ?badRegion, ?encodeFrame⟩
  case illegal =>
    have hstep := step_of_issue_eq hm
    rw [commandOverlong_of_illegal hbad, commandResult_of_illegal hbad] at hstep
    exact hstep
  case strip =>
    rintro rfl hno
    exact step_of_answersError hm (decode_eq_ok_iff.mpr (by decide))
      (answersError_strip (ne_frameOf_of_not_hasMarkers hno))
  case noFrame =>
    rintro rfl hfits hno
    exact step_of_answersError hm (decode_eq_ok_iff.mpr (by decide))
      (answersError_decodeFrame_of_noFrame hfits (ne_frameOf_of_not_hasMarkers hno))
  case badRegion =>
    rintro rfl hfits hmarkers hw
    obtain ⟨region, hs⟩ := (hasMarkers_iff sin).mp hmarkers
    have hregion : sin.length - 8 = region.length := by rw [hs, frameOf_length, Nat.add_sub_cancel]
    rw [hregion] at hw
    exact step_of_answersError hm (decode_eq_ok_iff.mpr (by decide))
      (answersError_decodeFrame_of_badRegion hfits hs hw)
  case encodeFrame =>
    rintro rfl hfits hlen
    exact step_of_answersError hm (decode_eq_ok_iff.mpr (by decide)) (answersError_encodeFrame hfits hlen)

theorem status_code_lt (st : Status) : st.code.toNat < 5 := by
  cases st with
  | ok => decide
  | error e => cases e <;> decide

/-- Settles O18: the result is `commandResult` of the command, whose error, if it has one, has a cause of its own. -/
theorem statusCodesAndWhoRaisesThem : Obligations.StatusCodesAndWhoRaisesThem := by
  refine ⟨rfl, rfl, rfl, rfl, rfl, status_code_lt, fun s t cmd sin rest r hm hs hr => ?_⟩
  have hres : commandResult s.params.width s.params.flipMap cmd sin = r :=
    Option.some.inj ((step_of_issue_result hm hs).symm.trans hr)
  subst hres
  refine ⟨fun hne => ?noData, fun h => ?sync, fun h => ?payload, fun h => ?group,
    commandResult_status_illegal_iff _ _ _ _⟩
  case noData =>
    obtain hok | ⟨e, he, -⟩ := commandResult_cases s.params.width s.params.flipMap cmd sin
    · exact absurd hok hne
    · rw [he]
      exact ⟨rfl, rfl, rfl, rfl⟩
  case sync =>
    obtain ⟨i, hd, hcause⟩ := endsInError_of_commandResult h nofun
    cases hcause with
    | strip => exact .inl hd
    | noFrame => exact .inr hd
  case payload =>
    obtain ⟨i, hd, hcause⟩ := endsInError_of_commandResult h nofun
    cases hcause with
    | encodeFrame => exact hd
  case group =>
    obtain ⟨i, hd, hcause⟩ := endsInError_of_commandResult h nofun
    cases hcause with
    | badRegion => exact hd

end Sys2Proof.Machine
end

section
/-! PROOF. Reset leaves nothing behind (spec R181, R182). -/

namespace Sys2Proof.Machine

/-- R181, R182: either kind of reset move leaves the block of the same build right after reset, with the host's later
moves to come. -/
theorem step_of_resetMove {s : State} {m : HostMove} {rest : List HostMove}
    (hm : m = .reset ∨ ∃ cmd sin, m = .issueCutByReset cmd sin) (h : s.moves = m :: rest) :
    step s = .next (State.afterReset s.params rest) := by
  obtain rfl | ⟨cmd, sin, rfl⟩ := hm
  · exact step_of_reset h
  · exact step_of_issueCutByReset h

/-- R27: a command overwrites the input ports and the result, so its step depends on the build and on the moves only. -/
theorem step_of_issue_congr {s t : State} {cmd : CmdWord} {sin : Bits} {rest : List HostMove}
    (hp : s.params = t.params) (hs : s.moves = .issue cmd sin :: rest) (ht : t.moves = .issue cmd sin :: rest) :
    step s = step t := by
  have hafter : ((s.hostGoesOn rest).present cmd sin).give (commandResult s.params.width s.params.flipMap cmd sin) =
      ((t.hostGoesOn rest).present cmd sin).give (commandResult t.params.width t.params.flipMap cmd sin) := by
    simp only [State.give, State.present, State.hostGoesOn, hp]
  rw [step_of_issue_eq hs, step_of_issue_eq ht, hafter, hp]

/-- Settles O14: the step leaves `State.afterReset` of the same build, which the next command cannot tell from the state
without the reset. -/
theorem resetLeavesNothingBehind : Obligations.ResetLeavesNothingBehind := by
  intro s m rest hm hs
  refine ⟨State.afterReset s.params rest, step_of_resetMove hm hs, rfl, rfl, rfl, fun cmd sin rest' hrest => ?_⟩
  exact step_of_issue_congr rfl hrest hrest

end Sys2Proof.Machine
end

section
/-! PROOF. Decoding and encoding agree (spec R60 to R65). -/

namespace Sys2Proof.Machine

/-- R60, R61: the word of an operation spells that operation. -/
theorem decode_encode (i : Instr) : decode (encode i) = .ok i := by
  obtain ⟨hop, hrsv, hopd⟩ := Laws.fields_of_append (operandByte i) (opcode i)
  exact decode_eq_ok_iff.mpr ⟨hrsv, hop, hopd⟩

/-- R63: every operation may be issued without a stream operand. -/
theorem wellFormed_nil (i : Instr) : WellFormed i [] = true := by
  cases i <;> rfl

/-- Settles O1: an operation's word has the fields that the decoder reads, those fields are the whole word, and without a
stream operand clause (e) of R64 never holds. -/
theorem decodeAndEncodeAgree : Obligations.DecodeAndEncodeAgree := by
  refine ⟨decode_encode, fun _ _ => encode_of_decode, fun cmd => ?_⟩
  simp only [illegalCommand_eq_false_iff, wellFormed_nil, and_true]

end Sys2Proof.Machine
end

section
/-! SUPPORT. The states a step can lead to, and how a step can stop (spec R8, R48, R51, R182, R187). -/

namespace Sys2Proof.Machine

/-- R48, R51: a step that answers a next state has found no move, or has reset the block, or has answered a command. -/
theorem step_next_cases {s t : State} (h : step s = .next t) :
    t = s ∨ (∃ rest, t = State.afterReset s.params rest) ∨
    ∃ cmd sin rest, t = ((s.hostGoesOn rest).present cmd sin).give
      (commandResult s.params.width s.params.flipMap cmd sin) := by
  cases hm : s.moves with
  | nil =>
    rw [step_of_noMove hm] at h
    cases h
    exact .inl rfl
  | cons m rest =>
    cases m with
    | issue cmd sin => exact .inr (.inr ⟨cmd, sin, rest, step_of_issue_next hm h⟩)
    | reset =>
      rw [step_of_reset hm] at h
      cases h
      exact .inr (.inl ⟨rest, rfl⟩)
    | issueCutByReset cmd sin =>
      rw [step_of_issueCutByReset hm] at h
      cases h
      exact .inr (.inl ⟨rest, rfl⟩)

theorem step_params {s t : State} (h : step s = .next t) : t.params = s.params := by
  obtain rfl | ⟨rest, rfl⟩ | ⟨cmd, sin, rest, rfl⟩ := step_next_cases h <;> rfl

/-- R8, R187: a step completes, or a bounded build refuses it. -/
theorem step_completes_or_refused (s : State) :
    (∃ t, step s = .next t) ∨ (s.params.maxNibbles ≠ none ∧ step s = .refused .operandExceedsMaxNibbles) := by
  cases hm : s.moves with
  | nil => exact .inl ⟨_, step_of_noMove hm⟩
  | cons m rest =>
    cases m with
    | issue cmd sin =>
      cases ho : commandOverlong s.params cmd sin with
      | false => exact .inl ((step_of_issue_completes hm).mpr ho)
      | true =>
        refine .inr ⟨fun hu => ?_, ?_⟩
        · cases ho.symm.trans (commandOverlong_of_unbounded hu cmd sin)
        · rw [step_of_issue_eq hm, if_pos ho]
    | reset => exact .inl ⟨_, step_of_reset hm⟩
    | issueCutByReset cmd sin => exact .inl ⟨_, step_of_issueCutByReset hm⟩

end Sys2Proof.Machine
end

section
/-! PROOF. Good states lead to good states (spec R28, R108, R109, R138, R168). -/

namespace Sys2Proof.Machine

/-- R109: at most one flip and one failing parity check. -/
theorem correctionCount_ne_three (m : FlipMap) (b : CodeWord) : correctionCount m b ≠ 3#2 := by
  rw [correctionCount_eq]
  split_ifs <;> decide

/-- R109: the count includes the flip. -/
theorem correctionCount_ne_zero {b : CodeWord} (h : errorFlag b = true) (m : FlipMap) : correctionCount m b ≠ 0#2 := by
  rw [correctionCount_eq, if_pos h]
  split <;> decide

/-- R108, R109: the three conditions on a record. -/
theorem Diag.wf_iff (d : Diag) :
    d.wf = true ↔ d.error = (d.syndrome != 0#3) ∧ d.count ≠ 3#2 ∧ (d.error = true → d.count ≠ 0#2) := by
  cases he : d.error <;> simp [Diag.wf, he, and_assoc]

theorem hammingDecode_diag_wf (m : FlipMap) (b : CodeWord) : (hammingDecode m b).diag.wf = true :=
  (Diag.wf_iff _).mpr ⟨rfl, correctionCount_ne_three m b, fun he => correctionCount_ne_zero he m⟩

/-- R28, R107: `rdiag[9:6]`, the low half of the word after the flip, is the nibble on `rdata`. -/
theorem packDiag_nibble (m : FlipMap) (b : CodeWord) :
    (packDiag (hammingDecode m b).diag).extractLsb' 6 4 = (hammingDecode m b).nibble := by
  obtain ⟨-, -, -, hword⟩ := packDiag_fields (hammingDecode m b).diag
  rw [← BitVec.setWidth_extractLsb'_of_le (show 4 ≤ 8 by decide), hword, hammingDecode_word, hammingDecode_nibble]

theorem ofError_wf (e : ErrorClass) : (Result.ofError e).wf = true := rfl

theorem ofEnc_wf (c : CodeWord) : (Result.ofEnc c).wf = true := rfl

theorem ofStream_wf (out : Bits) : (Result.ofStream out).wf = true := rfl

theorem ofDec_wf (m : FlipMap) (b : CodeWord) : (Result.ofDec (hammingDecode m b)).wf = true := by
  obtain ⟨hlow, hhigh⟩ := setWidth_eight_fields (hammingDecode m b).nibble
  obtain ⟨herror, hcount, hsyndrome, -⟩ := packDiag_fields (hammingDecode m b).diag
  have hshape : (Result.ofDec (hammingDecode m b)).fixedShape = true := by
    simp only [Result.fixedShape, Result.ofDec, hlow, hhigh, packDiag_nibble, herror, hcount, hsyndrome,
      hammingDecode_error, hammingDecode_count, hammingDecode_syndrome]
    simp [errorFlag, correctionCount_ne_three]
  simp [Result.wf, hshape]

theorem ofDecodedFrame_wf (p : Params) (region : Bits) :
    (Result.ofDecodedFrame (serNibbles ((decodeGroups p region).map Decoded.nibble))
      ((decodeGroups p region).map Decoded.diag)).wf = true := by
  have hdiags : ((decodeGroups p region).map Decoded.diag).all Diag.wf = true := by
    simp [decodeGroups, hammingDecode_diag_wf]
  simp [Result.wf, Result.streamShape, Result.ofDecodedFrame, serNibbles_length, hdiags]

theorem CompletesWith.wf {w : GroupWidth} {m : FlipMap} {sin : Bits} {i : Instr} {r : Result}
    (h : CompletesWith w m sin i r) : r.wf = true := by
  cases h with
  | enc n => exact ofEnc_wf _
  | dec b => exact ofDec_wf m b
  | wrap | strip _ _ | encodeFrame => exact ofStream_wf _
  | decodeFrame region _ _ => exact ofDecodedFrame_wf _ region

theorem commandResult_wf (w : GroupWidth) (m : FlipMap) (cmd : CmdWord) (sin : Bits) :
    (commandResult w m cmd sin).wf = true := by
  unfold commandResult
  cases decode cmd with
  | error _ => exact ofError_wf _
  | ok i =>
    obtain hrow | ⟨e, he⟩ := operationResult_completes_or_error w m sin i
    · exact hrow.wf
    · exact (congrArg Result.wf he).trans (ofError_wf e)

/-- Settles O52: a step keeps the result it finds, or clears it by a reset, or puts a command's result in its place, which
is well-formed whatever the command and the build. -/
theorem stepsKeepStatesGood : Obligations.StepsKeepStatesGood := by
  intro s t ⟨hparams, hresult⟩ hs
  refine ⟨(step_params hs).symm ▸ hparams, ?_⟩
  obtain rfl | ⟨rest, rfl⟩ | ⟨cmd, sin, rest, rfl⟩ := step_next_cases hs
  · exact hresult
  · exact nofun
  · rintro r ⟨⟩
    exact commandResult_wf _ _ cmd sin

/-- Settles O51: this hardware's build is unbounded, and reset leaves no result. -/
theorem resetIsGood : Obligations.ResetIsGood := ⟨rfl, nofun⟩

end Sys2Proof.Machine
end

section
/-! SUPPORT. Assembling and disassembling commands (spec R70, R71). -/

namespace Sys2Proof.Machine

theorem disassemble_of_legal {cmd : CmdWord} {sin : Bits} {i : Instr} (hd : decode cmd = .ok i)
    (hw : WellFormed i sin = true) : disassemble cmd sin = .line (lineOf i sin) := by
  simp only [disassemble, hd, hw, if_true]

theorem disassemble_of_illegal {cmd : CmdWord} {sin : Bits} (h : illegalCommand cmd sin = true) :
    disassemble cmd sin = .illegal cmd := by
  unfold disassemble
  cases hd : decode cmd with
  | error _ => rfl
  | ok i => exact if_neg (Bool.eq_false_iff.mp ((illegalCommand_of_decoded hd sin).mp h))

/-- R71: a command disassembles as illegal, or as the line of the operation that its word spells. -/
theorem disassemble_cases (cmd : CmdWord) (sin : Bits) :
    (illegalCommand cmd sin = true ∧ disassemble cmd sin = .illegal cmd) ∨
    (illegalCommand cmd sin = false ∧ ∃ i, decode cmd = .ok i ∧ WellFormed i sin = true ∧
      disassemble cmd sin = .line (lineOf i sin)) := by
  cases h : illegalCommand cmd sin with
  | true => exact .inl ⟨rfl, disassemble_of_illegal h⟩
  | false =>
    obtain ⟨i, hd, hw⟩ := (illegalCommand_eq_false_iff cmd sin).mp h
    exact .inr ⟨rfl, i, hd, hw, disassemble_of_legal hd hw⟩

/-- R70: a line has a stream operand only where its operation may take one. -/
theorem AsmLine.wellFormed (l : AsmLine) : WellFormed l.instr l.stream = true := by
  cases l <;> rfl

theorem lineOf_instr_stream (l : AsmLine) : lineOf l.instr l.stream = l := by
  cases l <;> rfl

theorem lineOf_instr (i : Instr) (sin : Bits) : (lineOf i sin).instr = i := by
  cases i <;> rfl

/-- R63: what the line of ENC or DEC leaves out was empty. -/
theorem lineOf_stream {i : Instr} {sin : Bits} (h : WellFormed i sin = true) : (lineOf i sin).stream = sin := by
  cases i with
  | enc _ | dec _ => exact (List.isEmpty_iff.mp h).symm
  | wrap | strip | encodeFrame | decodeFrame => rfl

theorem disassemble_assemble (l : AsmLine) : disassemble (assemble l).1 (assemble l).2 = .line l :=
  (disassemble_of_legal (decode_encode l.instr) l.wellFormed).trans (congrArg _ (lineOf_instr_stream l))

theorem assemble_lineOf {cmd : CmdWord} {sin : Bits} {i : Instr} (hd : decode cmd = .ok i)
    (hw : WellFormed i sin = true) : assemble (lineOf i sin) = (cmd, sin) := by
  rw [assemble, lineOf_instr, lineOf_stream hw, encode_of_decode hd]

end Sys2Proof.Machine
end

section
/-! SUPPORT. What is printed reads back: digits, numbers and bit strings (spec R70; log 5). -/

namespace Sys2Proof.Machine

theorem digitValue_digitChar {d : Nat} (h : d < 16) : digitValue (digitChar d) = some d := by
  revert d
  decide

/-- Reading hexadecimal digits undoes writing them, up to the number of digits written. -/
theorem readDigits_writeHex (digits v acc : Nat) (cs : List Char) :
    readDigits 16 acc (writeHex digits v ++ cs) = readDigits 16 (acc * 16 ^ digits + v % 16 ^ digits) cs := by
  induction digits generalizing v cs with
  | zero => simp [writeHex, Nat.mod_one]
  | succ digits ih =>
    have hd : v % 16 < 16 := Nat.mod_lt v (by decide)
    have hvalue : (acc * 16 ^ digits + v / 16 % 16 ^ digits) * 16 + v % 16 =
        acc * 16 ^ (digits + 1) + v % 16 ^ (digits + 1) := by
      rw [Nat.pow_succ', Nat.mod_mul]
      ring
    rw [writeHex, List.append_assoc, ih, List.singleton_append, readDigits, digitValue_digitChar hd]
    simp only [hd, if_true, hvalue]

theorem readNumber_writeHex (digits : Nat) {v : Nat} (h : v < 16 ^ (digits + 1)) :
    readNumber ('0' :: 'x' :: writeHex (digits + 1) v) = some v := by
  have hread := readDigits_writeHex (digits + 1) v 0 []
  rw [List.append_nil, Nat.zero_mul, Nat.zero_add, Nat.mod_eq_of_lt h] at hread
  exact (if_neg (by simp [writeHex])).trans hread

/-- R70: DEC's byte is printed in two hexadecimal digits. -/
theorem readField_writeHex (b : CodeWord) : readField 8 ('0' :: 'x' :: writeHex 2 b.toNat) = some b := by
  rw [readField, readNumber_writeHex 1 b.isLt]
  simp [b.isLt]

/-- R70: ENC's nibble is printed in one or two decimal digits. -/
theorem readField_writeNibble (n : Nibble) : readField 4 (writeNibble n) = some n := by
  revert n
  decide

theorem readBits_writeBits (bits : Bits) : readBits (bits.map bitChar ++ ['"']) = some bits := by
  induction bits with
  | nil => rfl
  | cons b rest ih => cases b <;> exact congrArg (Option.map _) ih

theorem readString_writeBits (bits : Bits) : readString (writeBits bits) = some bits := readBits_writeBits bits

end Sys2Proof.Machine
end

section
/-! PROOF. Assembly text and command words (spec R70, R71). -/

namespace Sys2Proof.Machine

/-- R70: the reader finds the mnemonic that was written, since no mnemonic with a space after it begins another line, and
its operand reads back. -/
theorem parseLine_writeLine (l : AsmLine) : parseLine (writeLine l) = some l := by
  cases l with
  | enc n => simp [parseLine, writeLine, AsmLine.instr, mnemonic, afterWord, writeOperand, readField_writeNibble]
  | dec b => simp [parseLine, writeLine, AsmLine.instr, mnemonic, afterWord, writeOperand, readField_writeHex]
  | wrap bits | strip bits | encodeFrame bits | decodeFrame bits =>
    simp [parseLine, writeLine, AsmLine.instr, mnemonic, afterWord, writeOperand, readString_writeBits]

/-- Settles O5: the word of a line decodes to its operation, a printed line reads back, and a command has a line exactly
when it is legal. -/
theorem disassemblyUndoesAssembly : Obligations.DisassemblyUndoesAssembly := by
  refine ⟨disassemble_assemble, parseLine_writeLine, fun cmd sin l h => ?line, fun cmd sin => ?illegal⟩
  case line =>
    obtain ⟨-, hdis⟩ | ⟨-, i, hd, hw, hdis⟩ := disassemble_cases cmd sin
    · cases hdis.symm.trans h
    · cases hdis.symm.trans h
      exact assemble_lineOf hd hw
  case illegal =>
    obtain ⟨hbad, hdis⟩ | ⟨hlegal, i, -, -, hdis⟩ := disassemble_cases cmd sin
    · exact iff_of_true hdis hbad
    · rw [hdis, hlegal]
      exact iff_of_false nofun nofun

end Sys2Proof.Machine
end

section
/-! PROOF. Frames with wrong bits in their groups (spec R110, R137). -/

namespace Sys2Proof.Machine

/-- R137: what DECODE_FRAME answers for the frame in whose groups the words `cs` are sent. -/
theorem answersFrame_of_serWords {s : State} {cs : List CodeWord}
    (hs : s.sin = frameOf (serWords s.params.width.bits cs)) (hfits : fitsFrame s.params s.sin.length) :
    let decoded := cs.map fun c => hammingDecode s.params.flipMap (receivedWord s.params.width c)
    answersFrame s (serNibbles (decoded.map Decoded.nibble)) (decoded.map Decoded.diag) := by
  have hwhole : (serWords s.params.width.bits cs).length % s.params.width.bits = 0 := by
    rw [serWords_length, Nat.mul_mod_right]
  have hans := answersFrame_of_groups hfits hs hwhole
  rw [decodeGroups, regionWords_serWords_eq_receivedWord, List.map_map (f := receivedWord _)] at hans
  exact hans

/-- R110: among the patterns of at most two wrong bits, those of two are told by the count. -/
theorem correctionCount_eq_two_iff {e : CodeWord} (h : weight e ≤ 2) (m : FlipMap) :
    correctionCount m e = 2#2 ↔ weight e = 2 := by
  have hlow := weight_eq_lowWeight_add e
  have hbit := Bool.toNat_le (e.getLsbD 7)
  constructor
  · intro hcount
    rw [correctionCount_eq] at hcount
    split_ifs at hcount with hodd herr
    · cases hcount
    · by_contra hne
      have h0 : lowWeight e = 0 := by omega
      rw [errorFlag_of_lowWeight_zero h0] at herr
      cases herr
    · cases hcount
  · intro h2
    exact correctionCount_of_even (by omega) (errorFlag_of_lowWeight (by omega) (by omega)) m

/-- R110: with at most one wrong bit the nibble comes back. -/
theorem hammingDecode_column_nibble {e : CodeWord} (h : weight e ≤ 1) (n : Nibble) :
    (hammingDecode .column (hammingEncode n ^^^ e)).nibble = n := by
  have hlow := weight_eq_lowWeight_add e
  rw [hammingDecode_hammingEncode_xor, (setWidth_correct_column_eq_zero_iff e).mpr (by omega), BitVec.xor_zero]

/-- Settles O50: each group is received as it was sent, so its record and its nibble follow from its error
pattern alone. -/
theorem framesAreSingleErrorCorrecting : Obligations.FramesAreSingleErrorCorrecting := by
  intro s groups hw hm hweight hs hfits
  have hregion : s.sin = frameOf (serWords s.params.width.bits (groups.map fun g => hammingEncode g.1 ^^^ g.2)) := by
    rw [hw, serWords, List.flatMap_map]
    exact hs
  have hans := answersFrame_of_serWords hregion hfits
  simp only [hm, hw, receivedWord_eight, List.map_map] at hans
  refine ⟨_, _, hans, ?length, fun i g d hg hd => ?count, fun hsingle => ?payload⟩
  case length => exact List.length_map _
  case count =>
    rw [List.getElem?_map, hg] at hd
    cases hd
    simp only [Function.comp_apply, hammingDecode_hammingEncode_xor]
    exact correctionCount_eq_two_iff (hweight g (List.mem_of_getElem? hg)) _
  case payload =>
    have hnibbles : groups.map (Decoded.nibble ∘ hammingDecode .column ∘ fun g => hammingEncode g.1 ^^^ g.2) =
        groups.map Prod.fst :=
      List.map_congr_left fun g hg => hammingDecode_column_nibble (hsingle g hg) g.1
    rw [← List.flatMap_map Prod.fst, ← hnibbles]
    rfl

end Sys2Proof.Machine
end

section
/-! PROOF. The words of the spec's test vectors (spec R60, R61, R64). -/

namespace Sys2Proof.Machine

/-- Settles O2, by running the decoder on the twelve words. -/
theorem wordsOfTheSpecDecode : Obligations.WordsOfTheSpecDecode := by
  unfold Obligations.WordsOfTheSpecDecode
  decide

end Sys2Proof.Machine
end

section
/-! PROOF. What a step runs (spec R27, R48; log 3 and log 4). -/

namespace Sys2Proof.Machine

/-- R27, R48: the step of an issued word runs the operation that the word spells. -/
theorem step_of_issue_decoded {s : State} {cmd : CmdWord} {sin : Bits} {rest : List HostMove} {i : Instr}
    (hm : s.moves = .issue cmd sin :: rest) (hd : decode cmd = .ok i) :
    step s = exec i ((s.hostGoesOn rest).present cmd sin) :=
  (step_of_issue hm).trans (performCommand_of_decoded hd)

/-- Settles O6: the ports carry the transaction when the decoded operation runs. -/
theorem stepRunsTheDecodedOperation : Obligations.StepRunsTheDecodedOperation :=
  fun _ _ _ _ _ => step_of_issue_decoded

theorem decode_of_decodeTableWord {nbits w : Nat} {i : Instr} (h : decodeTableWord nbits w = some i) :
    decode (BitVec.ofNat 16 w) = .ok i := by
  unfold decodeTableWord at h
  split at h
  · cases hd : decode (BitVec.ofNat 16 w) <;> rw [hd] at h <;> cases h
    rfl
  · cases h

/-- Settles O7: the placed word is the host's next move, with the stream operand that stands on `sin`. -/
theorem placedTableWordRunsNext : Obligations.PlacedTableWordRunsNext :=
  fun _ _ _ h => step_of_issue_decoded rfl (decode_of_decodeTableWord h)

/-- Settles O8: a step takes the host's next move, and there is none. -/
theorem stepWithNoMoveChangesNothing : Obligations.StepWithNoMoveChangesNothing :=
  fun _ => step_of_noMove

end Sys2Proof.Machine
end

section
/-! PROOF. What operations and steps leave unchanged, and what is refused (spec R8, R24, R187). -/

namespace Sys2Proof.Machine

/-- Settles O9: an operation that answers has only put a result on the ports. -/
theorem operationsChangeOnlyTheResult : Obligations.OperationsChangeOnlyTheResult := by
  intro i s t h
  obtain ⟨r, rfl⟩ := exec_next_gives h
  exact ⟨rfl, rfl, rfl, rfl, nofun⟩

theorem exceedsMaxNibbles_payload_iff {p : Params} {len : Nat} :
    exceedsMaxNibbles p 0 4 len = true ↔ ¬ fitsPayload p len := by
  rw [← Bool.not_eq_false, exceedsMaxNibbles_eq_false]
  simp only [Nat.zero_add, fitsPayload]

theorem exceedsMaxNibbles_frame_iff {p : Params} {len : Nat} :
    exceedsMaxNibbles p 8 p.width.bits len = true ↔ ¬ fitsFrame p len := by
  rw [← Bool.not_eq_false, exceedsMaxNibbles_eq_false, fitsFrame]

/-- R8: only the payload of ENCODE_FRAME and the frame of DECODE_FRAME are measured. -/
theorem operandOverlong_iff (p : Params) (sin : Bits) (i : Instr) :
    operandOverlong p sin i = true ↔
      (i = .encodeFrame ∧ ¬ fitsPayload p sin.length) ∨ (i = .decodeFrame ∧ ¬ fitsFrame p sin.length) := by
  cases i with
  | enc _ | dec _ | wrap | strip => simp [operandOverlong]
  | encodeFrame => simp [operandOverlong, exceedsMaxNibbles_payload_iff]
  | decodeFrame => simp [operandOverlong, exceedsMaxNibbles_frame_iff]

theorem exec_eq_refused_iff {i : Instr} {s : State} {r : Refusal} :
    exec i s = .refused r ↔ operandOverlong s.params s.sin i = true ∧ r = .operandExceedsMaxNibbles := by
  rw [exec_eq]
  cases operandOverlong s.params s.sin i <;> simp [eq_comm]

/-- R24: a run keeps what every step keeps. -/
theorem run_params (k : Nat) {s t : State} (h : Host.Core.run Sys2Proof.core k s = .next t) : t.params = s.params := by
  induction k generalizing s with
  | zero =>
    cases h
    rfl
  | succ k ih =>
    obtain ⟨u, hu⟩ | ⟨-, hrefused⟩ := step_completes_or_refused s
    · rw [run_succ_of_step hu] at h
      exact (ih h).trans (step_params hu)
    · have hcore : Sys2Proof.core.step s = .refused .operandExceedsMaxNibbles := hrefused
      simp only [Host.Core.run, hcore] at h
      cases h

/-- Settles O15, by induction on the number of steps. -/
theorem buildParametersNeverChange : Obligations.BuildParametersNeverChange :=
  fun k _ _ => run_params k

/-- Settles O16: an operation is refused exactly for an operand longer than the bound, and a step only for that. -/
theorem onlyOverlongOperandsAreRefused : Obligations.OnlyOverlongOperandsAreRefused := by
  refine ⟨fun _ => nofun, fun s hu => ?completes, fun i s => ?refused, fun i s r h => ?name⟩
  case completes => exact (step_completes_or_refused s).resolve_right fun ⟨hbounded, _⟩ => hbounded hu
  case refused =>
    rw [← operandOverlong_iff]
    simp only [exec_eq_refused_iff, exists_and_left, exists_eq, and_true]
  case name =>
    obtain ⟨-, hr⟩ := exec_eq_refused_iff.mp h
    exact hr

end Sys2Proof.Machine
end
